-- ==== Sys2Proof/Word.lean ====
section
/-! DEFINITION. The widths the spec gives (00_scope.md rule R7), and the one-bit selector (30_encoding.md rule R82). -/

namespace Sys2Proof

/-- One register-write word (`WORD_BITS`, R7, R70). Bit 0 is the least significant bit (R8). -/
abbrev Word := BitVec 16

/-- One 14-bit half of a frequency word (`HALF_BITS`, R7). -/
abbrev Half := BitVec 14

/-- A frequency word, the contents of one frequency register (`FW_BITS`, R7). -/
abbrev FreqWord := BitVec 28

/-- A phase word, the contents of one phase register (`PW_BITS`, R7). -/
abbrev PhaseWord := BitVec 12

/-- A register selector: one bit, `false` for index 0 and `true` for index 1 (R82). -/
abbrev Sel := Bool

end Sys2Proof
end

