-- ==== Sys2Proof/Syntax.lean ====
section
/-! DEFINITION. The five register-write words of spec/opcode_table.json, which are the instructions the target
executes (00_scope.md rule R3 (a), 30_encoding.md rules R71 to R74). -/

namespace Sys2Proof

/-- The five kinds of word, one constructor per row of the opcode table. -/
inductive Instr where
  /-- `CTRL`, format C (R74): the 14 field bits `w[13:0]`, each at its own bit number (42_control.md R140). -/
  | ctrl (fields : BitVec 14)
  /-- `FREQ0`, format F (R72): one 14-bit half for frequency register 0. -/
  | freq0 (d14 : Half)
  /-- `FREQ1`, format F (R72): one 14-bit half for frequency register 1. -/
  | freq1 (d14 : Half)
  /-- `PHASE0`, format P (R73): the unused bit 12 and the phase word for phase register 0. -/
  | phase0 (x : Bool) (d12 : PhaseWord)
  /-- `PHASE1`, format P (R73): the unused bit 12 and the phase word for phase register 1. -/
  | phase1 (x : Bool) (d12 : PhaseWord)
  deriving DecidableEq, Repr

end Sys2Proof
end

