-- ==== Sys2Proof/WellFormed.lean ====
section
/-! DEFINITION. Which words the encoding tables permit (30_encoding.md rule R79). Every word can be transmitted and
names a register (R51, R79); the ill-formed ones are the reserved encodings inside `CTRL`. The phase word's bit 12 is
ignored, not reserved, and the chip's other modes (`B28 = 0`, `HLB = 1`, sleep, half-square) are well-formed words that
the target refuses when it executes them (42_control.md rule R146). -/

namespace Sys2Proof

/-- "`CTRL` bits 9, 4, 2, 0 are reserved and must be 0" (R79). -/
def Instr.reservedBitsClear : Instr → Bool
  | .ctrl f => !f.getLsbD 9 && !f.getLsbD 4 && !f.getLsbD 2 && !f.getLsbD 0
  | .freq0 _ | .freq1 _ | .phase0 _ _ | .phase1 _ _ => true

/-- "`OPBITEN = 1` with `MODE = 1` is not a permitted combination" (R79): bits 5 and 1. -/
def Instr.outputModePermitted : Instr → Bool
  | .ctrl f => !(f.getLsbD 5 && f.getLsbD 1)
  | .freq0 _ | .freq1 _ | .phase0 _ _ | .phase1 _ _ => true

/-- A word that uses no reserved encoding (R79). -/
def Instr.wellFormed (i : Instr) : Bool := i.reservedBitsClear && i.outputModePermitted

end Sys2Proof
end

