-- ==== Sys2Proof/Decode.lean ====
section
/-! DEFINITION. From the bits of a transaction to a word (20_memory.md rules R57, R58), from a word to an instruction
(30_encoding.md rule R71), and the encoder from the format tables R72 to R74. -/

namespace Sys2Proof

/-- The bits of a word in transmission order, bit 15 first (R58). -/
def serialise (w : Word) : List Bool := (List.range 16).map w.getMsbD

/-- The word a receiver has shifted in, most significant bit first (R58). -/
def deserialise (bits : List Bool) : Word :=
  bits.foldl (fun acc b => acc <<< 1 ||| (BitVec.ofBool b).setWidth 16) 0#16

/-- Why bits are no instruction. -/
inductive DecodeRefusal where
  /-- A transfer of another length "is not a transaction of this block and has no meaning" (R57). Safe. -/
  | notSixteenBits (length : Nat)
  deriving DecidableEq, Repr

/-- Kind selection in R71's priority order, and the fields of formats C, F and P. Total: the tags cover all 2^16
words (R51). -/
def decodeWord (w : Word) : Instr :=
  if w.extractLsb' 14 2 = 0b00#2 then .ctrl (w.extractLsb' 0 14)
  else if w.extractLsb' 14 2 = 0b01#2 then .freq0 (w.extractLsb' 0 14)
  else if w.extractLsb' 14 2 = 0b10#2 then .freq1 (w.extractLsb' 0 14)
  else if w.extractLsb' 13 3 = 0b110#3 then .phase0 (w.getLsbD 12) (w.extractLsb' 0 12)
  else .phase1 (w.getLsbD 12) (w.extractLsb' 0 12)

/-- Decode the bits of one transaction, in transmission order; refused by name unless they are 16 (R57). -/
def decodeBits (bits : List Bool) : Except DecodeRefusal Instr :=
  if bits.length = 16 then .ok (decodeWord (deserialise bits)) else .error (.notSixteenBits bits.length)

/-- The word of an instruction: format C (R74), F (R72) or P (R73). -/
def encode : Instr → Word
  | .ctrl f => 0b00#2 ++ f
  | .freq0 d => 0b01#2 ++ d
  | .freq1 d => 0b10#2 ++ d
  | .phase0 x d => 0b110#3 ++ BitVec.ofBool x ++ d
  | .phase1 x d => 0b111#3 ++ BitVec.ofBool x ++ d

/-- The decoder on a word numbered as the opcode table numbers it: the table's rows are 16 bits, bit 0 the least
significant (R8). The word is laid out as the bus carries it and given to `decodeBits`. -/
def decodeTableWord (nbits w : Nat) : Option Instr :=
  if nbits = 16 ∧ w < 2 ^ 16 then
    match decodeBits (serialise (BitVec.ofNat 16 w)) with
    | .ok i => some i
    | .error _ => none
  else none

end Sys2Proof
end

