-- ==== Sys2Proof/Config.lean ====
section
/-! DEFINITION. What an instance fixes and the spec leaves open (00_scope.md rule R7), and the transport's answers
(43_framing.md rules R160, R161), which are draws. The opaque constants have no body: nothing can evaluate them. -/

namespace Sys2Proof

/-- What a transaction that the transport reports as failed delivered: the whole word or nothing (R161). -/
inductive Delivery where
  | delivered
  | lost
  deriving DecidableEq, Repr, Inhabited

/-- The transport's answer to one transaction: `r = draw ∈ {ok, fail}` of R160, and for a failure the draw
`c ∈ {delivered, lost}` of R161. -/
inductive Answer where
  | ok
  | fail (c : Delivery)
  deriving DecidableEq, Repr, Inhabited

namespace Config

/-- One less than a numerator of the reference clock; see `refClkHz`. -/
opaque refClkNumPred : Nat

/-- One less than a denominator of the reference clock; see `refClkHz`. -/
opaque refClkDenPred : Nat

/-- `REF_CLK_HZ` of the instance that `State.reset` describes: some positive rational, which one is open (R7,
92_eei_decisions.md D2). Every positive rational is of this form. DESIGN CHOICE (log 1), safe. -/
def refClkHz : Rat := ((refClkNumPred + 1 : Nat) : Rat) / ((refClkDenPred + 1 : Nat) : Rat)

/-- `CORRUPT_ON_FAILURE` of that instance: open (R7, 92_eei_decisions.md D21). DESIGN CHOICE (log 1), safe. -/
opaque corruptOnFailure : Bool

/-- The `n`-th answer the transport draws when the environment's list holds none (R160, R161; log 3). A free value:
a claim holds whatever it is. -/
opaque transportAnswer : Nat → Answer

end Config

end Sys2Proof
end

