-- ==== Sys2Proof/Machine/State.lean ====
section
/-! DEFINITION. The state: the block's shadow register `S` and the target image `T` (10_state.md), where the block is
in its operation, the instance's parameters, and what the outside world gives and gets. All of it is plain data. -/

namespace Sys2Proof.Machine

/-- The shapes the block exposes: exactly three (10_state.md R23). -/
inductive Waveform where
  | sine
  | triangle
  | square
  deriving DecidableEq, Repr

/-- The shapes the chip supports, and `wave_of` can answer (R23, 42_control.md R142). -/
inductive Shape where
  | sine
  | triangle
  | square
  | halfSquare
  deriving DecidableEq, Repr

/-- A pair of registers as a two-slot structure (10_state.md R25). -/
structure Slots (α : Type) where
  slot0 : α
  slot1 : α
  deriving DecidableEq, Repr

/-- The pending-half latch `T.PEND` (R24, R26). -/
inductive Pend where
  /-- No half is waiting. -/
  | none
  /-- The LSB half `d` for register `s` is waiting. -/
  | half (s : Sel) (d : Half)
  /-- `⊥`: the model does not know. -/
  | unknown
  deriving DecidableEq, Repr

/-- The target image `T` (R24). `Option.none` is `⊥`, "unknown": "A Lean model represents each element as `Option`"
(R29). The active slot of each pair is a bit of `ctrl` (R25). -/
structure Target where
  freq : Slots (Option FreqWord)
  phase : Slots (Option PhaseWord)
  ctrl : Option Word
  pend : Pend
  deriving DecidableEq, Repr

/-- The shadow control register `S` (R21). -/
structure Shadow where
  fsel : Sel
  psel : Sel
  wave : Waveform
  rst : Bool
  deriving DecidableEq, Repr

/-- The parameters of the instance (00_scope.md R7): fixed, and no step changes them (10_state.md R30). -/
structure Params where
  /-- `REF_CLK_HZ`. -/
  refClkHz : Rat
  /-- `CORRUPT_ON_FAILURE`. -/
  corruptOnFailure : Bool
  deriving DecidableEq, Repr

/-- The operations the block accepts (30_encoding.md R81). Frequencies and phases are exact rationals (R9). -/
inductive Operation where
  | encFreq (hz : Rat) (s : Sel)
  | encPhase (deg : Rat) (s : Sel)
  | encCtrl (wave : Waveform) (fsel psel rst : Bool)
  | write16 (w : Word)
  | setFrequency (hz : Rat)
  | setPhase (deg : Rat)
  | setWaveform (wave : Waveform)
  | init (f0 p0 : Rat) (w0 : Waveform)
  deriving DecidableEq, Repr

/-- The cause recorded with `InvalidParameter`; the block has one (60_exceptions.md R200, R202). -/
inductive Cause where
  | freqOutOfRange
  deriving DecidableEq, Repr

/-- The two error kinds and the information each records (R200, R201). -/
inductive OpError where
  | invalidParameter (cause : Cause) (hz : Rat)
  | transportFailure (index : Nat)
  deriving DecidableEq, Repr

/-- What an operation returns to its caller (30_encoding.md R81). -/
inductive Result where
  | ok
  /-- The words a pure codec function computed. -/
  | words (ws : List Word)
  | error (e : OpError)
  /-- The operation was called before `init` returned `ok` and is refused: no word, no change (43_framing.md R169).
  The run goes on, as in program P5 of 95_test_vectors.md: DEDUCED, log 5. -/
  | refusedBeforeInit
  deriving DecidableEq, Repr

/-- One thing the outside world does between two transactions of the block. -/
inductive EnvEvent where
  /-- The transport's answer to the block's next transaction (43_framing.md R160, R161). -/
  | answer (a : Answer)
  /-- A transaction of another bus user, to another device (20_memory.md R62). -/
  | foreign (bits : List Bool)
  /-- A power cycle or restart (10_state.md R32, 70_reset_and_hazards.md R220). -/
  | powerCycle
  deriving DecidableEq, Repr

/-- One transaction the bus has carried. -/
inductive Transaction where
  /-- A word of this block, addressed to the target (92_eei_decisions.md D23), and the transport's answer. -/
  | toTarget (w : Word) (a : Answer)
  /-- Another user's transaction. -/
  | foreign (bits : List Bool)
  deriving DecidableEq, Repr

/-- The whole state. -/
structure State where
  /-- `REF_CLK_HZ` and `CORRUPT_ON_FAILURE` (R7). -/
  params : Params
  /-- `S`; absent, "undefined", until an `init` has returned `ok` after power-on (R21, R220). -/
  shadow : Option Shadow
  /-- `initialised` (70_reset_and_hazards.md R221): the other operations are refused without it (43_framing.md R169).
  It is not a field of `S`: a failed `init` takes it (R224) and leaves `S` as it was (10_state.md R22). -/
  initialised : Bool
  /-- `T` (R24). -/
  target : Target
  /-- The operations asked for, oldest first; the head is the running one. -/
  queue : List Operation
  /-- Which word of the head operation goes next (R161, R168). -/
  index : Nat
  /-- What the outside world does next, oldest first. -/
  env : List EnvEvent
  /-- How many answers were drawn from `Config.transportAnswer`: the model's own counter (log 3). -/
  draws : Nat
  /-- What the finished operations returned, oldest first. -/
  results : List Result
  /-- The transactions on the bus, oldest first: the word history of 20_memory.md R60. -/
  bus : List Transaction
  deriving DecidableEq, Repr

/-- No machine fault exists: "The block has no trap mechanism. An error is a result value of the operation that met it"
(60_exceptions.md). So this type has no constructor and no step answers a fault. -/
inductive Fault where
  deriving DecidableEq, Repr

/-- The words and transfers the spec says the model refuses. Each is safe: the run stops where the chip would go on. -/
inductive Refusal where
  /-- An instruction without a meaning; no arm raises it. Safe. -/
  | notModelled (mnemonic : String)
  /-- Raised by CTRL: a reserved bit (9, 4, 2, 0) is 1 (42_control.md R146). Safe. -/
  | ctrlReservedBit
  /-- Raised by CTRL: `B28 = 0` (R146). Safe. -/
  | ctrlB28Clear
  /-- Raised by CTRL: `HLB = 1` (R146). Safe. -/
  | ctrlHlbSet
  /-- Raised by CTRL: `SLEEP1 = 1` or `SLEEP12 = 1` (R146). Safe. -/
  | ctrlSleep
  /-- Raised by CTRL: `OPBITEN = 1` and `MODE = 1` (R146). Safe. -/
  | ctrlOpbitenMode
  /-- Raised by CTRL: `OPBITEN = 1` and `DIV2 = 0`, half-square (R146). Safe. -/
  | ctrlHalfSquare
  /-- Raised by FREQ0 and FREQ1: `T.CTRL = ⊥` (40_frequency.md R111). Safe. -/
  | freqBeforeCtrl
  /-- Raised by FREQ0 and FREQ1: `T.CTRL.B28 = 0` (R111). Safe. -/
  | freqB28Clear
  /-- Raised by the receiver: a transfer that is not 16 bits long (20_memory.md R57). Safe. -/
  | transferNotSixteenBits (length : Nat)
  deriving DecidableEq, Repr

/-- The image after power-on: every element `⊥` (10_state.md R24, 70_reset_and_hazards.md R220). -/
def Target.powerOn : Target :=
  { freq := ⟨none, none⟩, phase := ⟨none, none⟩, ctrl := none, pend := .unknown }

/-- An instance with the given parameters, right after power-on, before any call (R220). The lists of the outside world
are empty and the draw counter is 0: DESIGN CHOICE, logs 2 and 3. -/
def State.powerOn (p : Params) : State :=
  { params := p, shadow := none, initialised := false, target := .powerOn, queue := [], index := 0, env := [],
    draws := 0, results := [], bus := [] }

/-- The machine right after reset: power-on (R220) of the instance whose parameters Config leaves open (log 1). -/
def State.reset : State :=
  .powerOn { refClkHz := Config.refClkHz, corruptOnFailure := Config.corruptOnFailure }

end Sys2Proof.Machine
end

