-- ==== Sys2Proof/Machine/Flags.lean ====
section
/-! DEFINITION. The block has no flags or condition codes (10_state.md rule R31). What stands here are the fields of the
control register (42_control.md rule R140), the word check of R146 and the shape of R142. -/

namespace Sys2Proof.Machine

/-- `B28`, bit 13: two consecutive F words load all 28 bits (R140). -/
def ctrlB28 (w : Word) : Bool := w.getLsbD 13
/-- `HLB`, bit 12 (R140). -/
def ctrlHlb (w : Word) : Bool := w.getLsbD 12
/-- `FSELECT`, bit 11: index of the active frequency register (R140). -/
def ctrlFselect (w : Word) : Sel := w.getLsbD 11
/-- `PSELECT`, bit 10: index of the active phase register (R140). -/
def ctrlPselect (w : Word) : Sel := w.getLsbD 10
/-- `RESET`, bit 8: output held (R140). -/
def ctrlReset (w : Word) : Bool := w.getLsbD 8
/-- `SLEEP1`, bit 7: internal clock stopped (R140). -/
def ctrlSleep1 (w : Word) : Bool := w.getLsbD 7
/-- `SLEEP12`, bit 6: DAC powered down (R140). -/
def ctrlSleep12 (w : Word) : Bool := w.getLsbD 6
/-- `OPBITEN`, bit 5: the output is the DAC data MSB (R140). -/
def ctrlOpbiten (w : Word) : Bool := w.getLsbD 5
/-- `DIV2`, bit 3: with `OPBITEN`, 1 = MSB, 0 = MSB/2 (R140). -/
def ctrlDiv2 (w : Word) : Bool := w.getLsbD 3
/-- `MODE`, bit 1: without `OPBITEN`, 1 = triangle, 0 = sine (R140). -/
def ctrlMode (w : Word) : Bool := w.getLsbD 1
/-- Some reserved bit (9, 4, 2, 0) is 1 (R140, R146). -/
def ctrlReservedSet (w : Word) : Bool := w.getLsbD 9 || w.getLsbD 4 || w.getLsbD 2 || w.getLsbD 0

/-- Why a control word is refused: R146's conditions in R146's order, the first that holds. -/
def ctrlRefusal (w : Word) : Option Refusal :=
  if ctrlReservedSet w then some .ctrlReservedBit
  else if !ctrlB28 w then some .ctrlB28Clear
  else if ctrlHlb w then some .ctrlHlbSet
  else if ctrlSleep1 w || ctrlSleep12 w then some .ctrlSleep
  else if ctrlOpbiten w && ctrlMode w then some .ctrlOpbitenMode
  else if ctrlOpbiten w && !ctrlDiv2 w then some .ctrlHalfSquare
  else none

/-- `reserved_or_unsupported(w)` (R146). -/
def reservedOrUnsupported (w : Word) : Bool := (ctrlRefusal w).isSome

/-- `wave_of(c)` (R142): no shape for `OPBITEN = 1, MODE = 1`. -/
def waveOf (c : Word) : Option Shape :=
  if !ctrlOpbiten c then some (if ctrlMode c then .triangle else .sine)
  else if ctrlMode c then none
  else some (if ctrlDiv2 c then .square else .halfSquare)

/-- The chip's shape that a `Waveform` stands for (R23). -/
def Waveform.shape : Waveform → Shape
  | .sine => .sine
  | .triangle => .triangle
  | .square => .square

end Sys2Proof.Machine
end

