-- ==== Sys2Proof/Machine/Operands.lean ====
section
/-! DEFINITION. Operand assembly: the frequency and phase numbers (40_frequency.md rule R100, 41_phase.md rule R120),
the halves of a frequency word (30_encoding.md rule R75) and the tags (20_memory.md rule R50). -/

namespace Sys2Proof.Machine

/-- `round(x) = floor(x + 1/2)`, exact; ties go up (00_scope.md R9, 92_eei_decisions.md D3). -/
def roundHalfUp (x : Rat) : Int := (x + 1 / 2).floor

/-- `FW(hz) = floor(hz * 2^28 / REF + 1/2)`, an integer (R100). -/
def freqNumber (ref hz : Rat) : Int := roundHalfUp (hz * 2 ^ 28 / ref)

/-- `0 <= hz <= REF / 2`, both bounds inclusive (R101). -/
abbrev freqValid (ref hz : Rat) : Prop := 0 ≤ hz ∧ hz ≤ ref / 2

/-- The FrequencyWord: `FW(hz)` in 28 bits. For a valid `hz` nothing is cut off (R102). -/
def freqWordOf (ref hz : Rat) : FreqWord := BitVec.ofInt 28 (freqNumber ref hz)

/-- `floor(deg * 2^12 / 360 + 1/2)`, before the reduction (R120). -/
def phaseNumber (deg : Rat) : Int := roundHalfUp (deg * 2 ^ 12 / 360)

/-- The PhaseWord: rounded first, then reduced mod 2^12, the Euclidean remainder (R120). -/
def phaseWordOf (deg : Rat) : PhaseWord := BitVec.ofInt 12 (phaseNumber deg % 2 ^ 12)

/-- `lo14 = FW[13:0]` (R75). -/
def loHalf (fw : FreqWord) : Half := fw.extractLsb' 0 14

/-- `hi14 = FW[27:14]` (R75). -/
def hiHalf (fw : FreqWord) : Half := fw.extractLsb' 14 14

/-- `FW = {hi14, lo14}` (R75). -/
def joinHalves (hi lo : Half) : FreqWord := hi ++ lo

/-- The tag of an F word: `01` for register 0, `10` for register 1 (R50, R104). -/
def freqTag (s : Sel) : BitVec 2 := if s then 0b10#2 else 0b01#2

/-- The tag of a P word: `110` for register 0, `111` for register 1 (R50, R123). -/
def phaseTag (s : Sel) : BitVec 3 := if s then 0b111#3 else 0b110#3

/-- One bit at position `n` of a word, as in `fsel << 11` (42_control.md R141). -/
def bitAt (b : Bool) (n : Nat) : Word := (BitVec.ofBool b).setWidth 16 <<< n

end Sys2Proof.Machine
end

