-- ==== Sys2Proof/Machine/Ops.lean ====
section
/-! DEFINITION. The named operations over the target image, the block's errors and results, the bus and the transport:
everything the meanings and the step share. -/

namespace Sys2Proof.Machine

/-- The slot of a selector. -/
def Slots.get {α : Type} (p : Slots α) (s : Sel) : α := if s then p.slot1 else p.slot0

/-- The pair with the slot of a selector replaced. -/
def Slots.set {α : Type} (p : Slots α) (s : Sel) (v : α) : Slots α :=
  if s then { p with slot1 := v } else { p with slot0 := v }

/-! ### The target image -/

/-- `T.FREQ[s] <- v` (10_state.md R24). -/
def Target.setFreq (t : Target) (s : Sel) (v : Option FreqWord) : Target := { t with freq := t.freq.set s v }

/-- `T.PHASE[s] <- v` (R24). -/
def Target.setPhase (t : Target) (s : Sel) (v : Option PhaseWord) : Target := { t with phase := t.phase.set s v }

/-- `T.FREQ[0] <- ⊥; T.FREQ[1] <- ⊥` (40_frequency.md R109). -/
def Target.forgetFreqs (t : Target) : Target := { t with freq := ⟨none, none⟩ }

/-- What a word that is not the awaited half does to the frequency registers: a register whose half is pending becomes
unknown, and both do when the latch is unknown (41_phase.md R125, 42_control.md R145). -/
def Target.breakPair (t : Target) : Target :=
  match t.pend with
  | .none => t
  | .half s' _ => t.setFreq s' none
  | .unknown => t.forgetFreqs

/-- The latch after a phase word: a pending half is lost and the latch unknown (R125). -/
def Pend.afterPhase : Pend → Pend
  | .none => .none
  | .half _ _ => .unknown
  | .unknown => .unknown

/-- The `case T.PEND` of `on_freq_word(s, d)` (R109): the first half waits, the second of the same register completes
the pair, anything else makes both frequency registers and the latch unknown. An F word carries no mark of which half
it is, so two words of one register pair in the order they land: sent MSB half first, or with another F word of the
register between them, they latch a known value, where 70_reset_and_hazards.md R230 calls the register unknown.
DEDUCED, unsafe: R109's pseudocode is followed, log 21. -/
def Target.takeHalf (t : Target) (s : Sel) (d : Half) : Target :=
  match t.pend with
  | .none => { t with pend := .half s d }
  | .half s' lo =>
    if s' = s then { t.setFreq s (some (joinHalves d lo)) with pend := .none }
    else { t.forgetFreqs with pend := .unknown }
  | .unknown => { t.forgetFreqs with pend := .unknown }

/-- `on_phase_word(s, d)` (R125). -/
def Target.takePhase (t : Target) (s : Sel) (d : PhaseWord) : Target :=
  { (t.setPhase s (some d)).breakPair with pend := t.pend.afterPhase }

/-- `on_ctrl_word(w)` for a word that is not refused (R145): re-synchronise the latch, then `T.CTRL <- w`. -/
def Target.takeCtrl (t : Target) (w : Word) : Target := { t.breakPair with pend := .none, ctrl := some w }

/-- `on_freq_word(s, d)` with its refusals (R109, R111), the shared meaning of FREQ0 and FREQ1. -/
def onFreqWord (sel : Sel) (d : Half) (s : State) : Host.Outcome State Fault Refusal :=
  match s.target.ctrl with
  | none => .refused .freqBeforeCtrl
  | some c =>
    if ctrlB28 c then .next { s with target := s.target.takeHalf sel d } else .refused .freqB28Clear

/-- `on_phase_word(s, d)` (R125), the shared meaning of PHASE0 and PHASE1. -/
def onPhaseWord (sel : Sel) (d : PhaseWord) (s : State) : Host.Outcome State Fault Refusal :=
  .next { s with target := s.target.takePhase sel d }

/-- `on_ctrl_word(w)` (R145, R146). -/
def onCtrlWord (w : Word) (s : State) : Host.Outcome State Fault Refusal :=
  match ctrlRefusal w with
  | some r => .refused r
  | none => .next { s with target := s.target.takeCtrl w }

/-! ### Results and errors -/

/-- The head operation returns `r` to its caller and the next one, if any, is at its first word. -/
def finish (r : Result) (s : State) : State :=
  { s with results := s.results ++ [r], queue := s.queue.tail, index := 0 }

/-- Error entry, the one way an operation fails (60_exceptions.md R206): the error goes to the caller, nothing is saved,
no mode changes, `S` is as it was. There is no handler and no return from an error: the next operation simply runs
(R207). -/
def raiseError (e : OpError) (s : State) : State := finish (.error e) s

/-- The error codes 1 and 2 (R200, R201). -/
def OpError.code : OpError → Nat
  | .invalidParameter _ _ => 1
  | .transportFailure _ => 2

/-- All words were transported: `S` and `initialised` take their new values and the operation returns `ok` (10_state.md
R22, 70_reset_and_hazards.md R221). -/
def complete (after : Option Shadow) (init : Bool) (s : State) : State :=
  finish .ok { s with shadow := after, initialised := init }

/-- Word `i` was not transported: `TransportFailure(i)`, with `S` as it was (60_exceptions.md R201, R206). -/
def failWord (init : Bool) (s : State) : State :=
  raiseError (.transportFailure s.index) { s with initialised := init }

/-! ### The bus and the transport -/

/-- The transport's answer to the next transaction: the environment's, or a free draw when it gives none (43_framing.md
R160, R161; log 3). -/
def takeAnswer (s : State) : Answer × State :=
  match s.env with
  | .answer a :: rest => (a, { s with env := rest })
  | _ => (Config.transportAnswer s.draws, { s with draws := s.draws + 1 })

/-- Enter a transaction in the bus's history (20_memory.md R60). -/
def record (x : Transaction) (s : State) : State := { s with bus := s.bus ++ [x] }

/-- Another user's transaction: it does not reach the target and does not change `T` (R62). -/
def foreignTransaction (bits : List Bool) (s : State) : State := record (.foreign bits) s

/-- The block loses the operation it is in (one with a word already sent); calls it has not begun still wait.
DESIGN CHOICE, log 6. -/
def dropRunning (s : State) : State :=
  if s.index = 0 then s else { s with queue := s.queue.tail, index := 0 }

/-- A power cycle or restart: `S` is undefined and every element of `T` is `⊥` (10_state.md R32, 70_reset_and_hazards.md
R220). -/
def powerCycle (s : State) : State :=
  { dropRunning s with shadow := none, initialised := false, target := .powerOn }

/-- Go on with `f` where the outcome is a next state; a fault or a refusal stays. -/
def onNext (f : State → State) : Host.Outcome State Fault Refusal → Host.Outcome State Fault Refusal
  | .next s => .next (f s)
  | .fault r => .fault r
  | .refused r => .refused r

end Sys2Proof.Machine
end

