-- ==== Sys2Proof/Machine/Codec.lean ====
section
/-! DEFINITION. The pure codec functions (10_state.md rule R20): `enc_freq` (40_frequency.md rule R104), `enc_phase`
(41_phase.md rule R123), `enc_ctrl` (42_control.md rule R141), and `decode_freq` (R108). The reference clock is the
parameter `ref`. -/

namespace Sys2Proof.Machine

/-- `enc_freq(hz, s)` (R104): out of range is rejected, never clamped (R103); else the LSB half, then the MSB half, with
the same tag (R105). -/
def encFreq (ref hz : Rat) (s : Sel) : Except OpError (List Word) :=
  if freqValid ref hz then
    .ok [freqTag s ++ loHalf (freqWordOf ref hz), freqTag s ++ hiHalf (freqWordOf ref hz)]
  else .error (.invalidParameter .freqOutOfRange hz)

/-- `enc_phase(deg, s)` (R123): one word `{tag, 0, pw}`; no input is rejected (R121). -/
def encPhase (deg : Rat) (s : Sel) : List Word := [phaseTag s ++ 0#1 ++ phaseWordOf deg]

/-- `wavebits` (R142). -/
def waveBits : Waveform → Word
  | .sine => 0x0000#16
  | .triangle => 0x0002#16
  | .square => 0x0028#16

/-- The word `w` of `enc_ctrl` (R141). -/
def ctrlWord (wave : Waveform) (fsel psel rst : Bool) : Word :=
  0x2000#16 ||| bitAt fsel 11 ||| bitAt psel 10 ||| bitAt rst 8 ||| waveBits wave

/-- `enc_ctrl(wave, fsel, psel, rst)` (R141). -/
def encCtrl (wave : Waveform) (fsel psel rst : Bool) : List Word := [ctrlWord wave fsel psel rst]

/-- `decode_freq(w1, w2) = {w2[13:0], w1[13:0]} * REF / 2^28` for two F words with equal tags (R108); no other pair of
words has a frequency. -/
def decodeFreq (ref : Rat) (w1 w2 : Word) : Option Rat :=
  match decodeWord w1, decodeWord w2 with
  | .freq0 lo, .freq0 hi | .freq1 lo, .freq1 hi => some (((joinHalves hi lo).toNat : Rat) * ref / 2 ^ 28)
  | _, _ => none

end Sys2Proof.Machine
end

