-- ==== Sys2Proof/Machine/Control.lean ====
section
/-! DEFINITION. The meaning of the CTRL word at the target (42_control.md rules R145 to R147). -/

namespace Sys2Proof.Machine

/-- CTRL: the word with tag 00 and these 14 field bits lands at the target (R145), or is refused (R146). -/
def execCtrl (fields : BitVec 14) (s : State) : Host.Outcome State Fault Refusal :=
  onCtrlWord (0b00#2 ++ fields) s

end Sys2Proof.Machine
end

