-- ==== Sys2Proof/Machine/Frequency.lean ====
section
/-! DEFINITION. The meanings of the FREQ0 and FREQ1 words at the target (40_frequency.md rules R109 to R111). -/

namespace Sys2Proof.Machine

/-- FREQ0: one half for frequency register 0 (R109). -/
def execFreq0 (d14 : Half) (s : State) : Host.Outcome State Fault Refusal := onFreqWord false d14 s

/-- FREQ1: one half for frequency register 1 (R109). -/
def execFreq1 (d14 : Half) (s : State) : Host.Outcome State Fault Refusal := onFreqWord true d14 s

end Sys2Proof.Machine
end

