-- ==== Sys2Proof/Machine/Phase.lean ====
section
/-! DEFINITION. The meanings of the PHASE0 and PHASE1 words at the target (41_phase.md rules R125, R126). -/

namespace Sys2Proof.Machine

/-- PHASE0: the phase word of phase register 0; bit 12 is ignored (R125). -/
def execPhase0 (_x : Bool) (d12 : PhaseWord) (s : State) : Host.Outcome State Fault Refusal := onPhaseWord false d12 s

/-- PHASE1: the phase word of phase register 1; bit 12 is ignored (R125). -/
def execPhase1 (_x : Bool) (d12 : PhaseWord) (s : State) : Host.Outcome State Fault Refusal := onPhaseWord true d12 s

end Sys2Proof.Machine
end

