-- ==== Sys2Proof/Machine/Dispatch.lean ====
section
/-! DEFINITION. What the target does with each word, by its kind: `deliver` of 43_framing.md rule R162. -/

namespace Sys2Proof.Machine

def exec (i : Instr) (s : State) : Host.Outcome State Fault Refusal :=
  match i with
  | .ctrl fields => Sys2Proof.Machine.execCtrl fields s
  | .freq0 d14 => Sys2Proof.Machine.execFreq0 d14 s
  | .freq1 d14 => Sys2Proof.Machine.execFreq1 d14 s
  | .phase0 x d12 => Sys2Proof.Machine.execPhase0 x d12 s
  | .phase1 x d12 => Sys2Proof.Machine.execPhase1 x d12 s

end Sys2Proof.Machine
end

