-- ==== Sys2Proof/Machine/Framing.lean ====
section
/-! DEFINITION. The transaction and the framing operations (43_framing.md), and `init` (70_reset_and_hazards.md rule
R221). An operation is a plan: what it answers at once, or the words it emits and the shadow it leaves if all of them
are transported. One step of the machine carries one word (20_memory.md rule R54). -/

namespace Sys2Proof.Machine

/-! ### One transaction -/

/-- The target takes in the bits of one transaction (20_memory.md R57, R58) and executes the word. -/
def receive (bits : List Bool) (s : State) : Host.Outcome State Fault Refusal :=
  match decodeBits bits with
  | .ok i => exec i s
  | .error (.notSixteenBits n) => .refused (.transferNotSixteenBits n)

/-- `deliver(w)` (R162): the word crosses the bus most significant bit first and is executed. -/
def deliver (w : Word) (s : State) : Host.Outcome State Fault Refusal := receive (serialise w) s

/-- `failed_delivery(w)` (R161): all of `T` unknown with `CORRUPT_ON_FAILURE`, else the whole word or nothing. -/
def failedDelivery (c : Delivery) (w : Word) (s : State) : Host.Outcome State Fault Refusal :=
  if s.params.corruptOnFailure then .next { s with target := .powerOn }
  else match c with
    | .delivered => deliver w s
    | .lost => .next s

/-- `write16(w)` with answer `a` (R160): what reaches the target. -/
def transfer (w : Word) (a : Answer) (s : State) : Host.Outcome State Fault Refusal :=
  match a with
  | .ok => deliver w s
  | .fail c => failedDelivery c w s

/-! ### What an operation does -/

/-- What an operation does when it is called. -/
inductive Plan where
  /-- It answers at once and sends no word. -/
  | reply (r : Result)
  /-- It emits `ws` in order; once all are transported `S` becomes `after` (`emit_seq`, R161). -/
  | emit (ws : List Word) (after : Option Shadow)
  deriving DecidableEq, Repr

/-- An operation that needs an initialised block is refused without one (R169). An initialised block has its shadow in
every reachable state (Safety, `Inv`). -/
def whenInitialised (initialised : Bool) (S : Option Shadow) (k : Shadow → Plan) : Plan :=
  match initialised, S with
  | true, some S => k S
  | true, none => .reply .refusedBeforeInit
  | false, _ => .reply .refusedBeforeInit

/-- An operation that encodes a frequency raises `InvalidParameter` before any word (60_exceptions.md R200). -/
def whenEncoded (ws : Except OpError (List Word)) (k : List Word → Plan) : Plan :=
  match ws with
  | .error e => .reply (.error e)
  | .ok ws => k ws

/-- `set_frequency(hz)` (R163): write the inactive register, then make it the active one. -/
def planSetFrequency (ref hz : Rat) (S : Shadow) : Plan :=
  whenEncoded (encFreq ref hz (!S.fsel)) fun ws =>
    .emit (ws ++ encCtrl S.wave (!S.fsel) S.psel S.rst) (some { S with fsel := !S.fsel })

/-- `set_phase(deg)` (R165). -/
def planSetPhase (deg : Rat) (S : Shadow) : Plan :=
  .emit (encPhase deg (!S.psel) ++ encCtrl S.wave S.fsel (!S.psel) S.rst) (some { S with psel := !S.psel })

/-- `set_waveform(wave)` (R167). -/
def planSetWaveform (wave : Waveform) (S : Shadow) : Plan :=
  .emit (encCtrl wave S.fsel S.psel S.rst) (some { S with wave := wave })

/-- `init(f0, p0, w0)` (R221): five words, with reset asserted by the first and de-asserted by the last. None of them
writes FREQ1 or PHASE1, so a re-run of `init` keeps the values the target has there, where the table of R222 has `⊥`
without a condition. DEDUCED, unsafe: R221's words are followed, log 22. -/
def planInit (ref f0 p0 : Rat) (w0 : Waveform) : Plan :=
  whenEncoded (encFreq ref f0 false) fun ws =>
    .emit (encCtrl w0 false false true ++ ws ++ encPhase p0 false ++ encCtrl w0 false false false)
      (some { fsel := false, psel := false, wave := w0, rst := false })

/-- The plan of each operation of 30_encoding.md R81. `write16` leaves `S` alone. -/
def plan (op : Operation) (s : State) : Plan :=
  match op with
  | .encFreq hz sel => whenEncoded (encFreq s.params.refClkHz hz sel) fun ws => .reply (.words ws)
  | .encPhase deg sel => .reply (.words (encPhase deg sel))
  | .encCtrl wave fsel psel rst => .reply (.words (encCtrl wave fsel psel rst))
  | .write16 w => .emit [w] s.shadow
  | .setFrequency hz => whenInitialised s.initialised s.shadow (planSetFrequency s.params.refClkHz hz)
  | .setPhase deg => whenInitialised s.initialised s.shadow (planSetPhase deg)
  | .setWaveform wave => whenInitialised s.initialised s.shadow (planSetWaveform wave)
  | .init f0 p0 w0 => planInit s.params.refClkHz f0 p0 w0

/-! ### One word of `emit_seq` -/

/-- `initialised` after an operation whose words were all transported (`ok`) or of which one failed: `init` sets it,
and an `init` that fails in transport leaves the block uninitialised, a re-run of `init` too (70_reset_and_hazards.md
R221, R224; log 4). The other operations leave it. -/
def initialisedAfter (op : Operation) (ok was : Bool) : Bool :=
  match op with
  | .init _ _ _ => ok
  | .encFreq _ _ | .encPhase _ _ | .encCtrl _ _ _ _ | .write16 _ | .setFrequency _ | .setPhase _ | .setWaveform _ => was

/-- After word `i` of `op` was answered `ok`: the next word, or the operation is complete (R161). -/
def advance (op : Operation) (rest : List Word) (after : Option Shadow) (s : State) : State :=
  if rest = [] then complete after (initialisedAfter op true s.initialised) s else { s with index := s.index + 1 }

/-- After word `i` of `op` was answered `a`: go on, or fail with `TransportFailure(i)`, the later words unsent (R161).
-/
def afterAnswer (op : Operation) (a : Answer) (rest : List Word) (after : Option Shadow) (s : State) : State :=
  match a with
  | .ok => advance op rest after s
  | .fail _ => failWord (initialisedAfter op false s.initialised) s

/-- One transaction of the running operation: the word goes out, the transport answers, the word is delivered or not,
and the operation goes on or fails (R160, R161). -/
def sendWord (op : Operation) (w : Word) (rest : List Word) (after : Option Shadow) (s : State) :
    Host.Outcome State Fault Refusal :=
  onNext (afterAnswer op (takeAnswer s).1 rest after)
    (transfer w (takeAnswer s).1 (record (.toTarget w (takeAnswer s).1) (takeAnswer s).2))

/-- One step of the operation at the head of the queue. An index past its last word is in no reachable state (Safety,
`Inv`); the operation then begins at its first word. -/
def stepOperation (op : Operation) (s : State) : Host.Outcome State Fault Refusal :=
  match plan op s with
  | .reply r => .next (finish r s)
  | .emit ws after =>
    match ws.drop s.index with
    | [] => .next { s with index := 0 }
    | w :: rest => sendWord op w rest after s

end Sys2Proof.Machine
end

