-- ==== Sys2Proof/Machine/Step.lean ====
section
/-! DEFINITION. One step: an event of the outside world that is due, or one step of the operation at the head of the
queue, or nothing while no operation is asked for. -/

namespace Sys2Proof.Machine

/-- One step. Another user's transaction and a power cycle happen when they are next in the environment's list, between
two transactions (20_memory.md R54, R62); otherwise the block goes on with its operation (43_framing.md R168). -/
def step (s : State) : Host.Outcome State Fault Refusal :=
  match s.env with
  | .foreign bits :: rest => .next (foreignTransaction bits { s with env := rest })
  | .powerCycle :: rest => .next (powerCycle { s with env := rest })
  | _ =>
    match s.queue with
    | [] => .next s
    | op :: _ => stepOperation op s

/-- The state in which the very next step sends this word to the target and the transport answers `ok`: the operation
`write16 w` (30_encoding.md R81) before the others, at its first word, and its answer first in the environment's list
(log 2). -/
def State.withFetchWord (s : State) (nbits w : Nat) : State :=
  { s with
    queue := .write16 (BitVec.ofNat 16 (w % 2 ^ nbits)) :: s.queue
    index := 0
    env := .answer .ok :: s.env }

end Sys2Proof.Machine
end

