-- ==== Sys2Proof/Machine/Written.lean ====
section
/-! DEFINITION. The written forms of words (30_encoding.md rule R83) and the words they stand for. The written forms of
operations are `Operation`, whose words 43_framing.md and 70_reset_and_hazards.md give (Machine/Framing.lean). -/

namespace Sys2Proof.Machine

/-- A word as R83 writes it. -/
inductive Written where
  /-- `CTRL wave=… fsel=… psel=… rst=…`: the word `enc_ctrl(wave, fsel, psel, rst)`. -/
  | ctrl (wave : Waveform) (fsel psel rst : Bool)
  /-- `FREQ<s>.LO 0x<d14>`: an F word with tag `s` carrying the LSB half. -/
  | freqLo (s : Sel) (d : Half)
  /-- `FREQ<s>.HI 0x<d14>`: an F word with tag `s` carrying the MSB half. -/
  | freqHi (s : Sel) (d : Half)
  /-- `PHASE<s> 0x<d12>`: a P word. -/
  | phase (s : Sel) (d : PhaseWord)
  /-- `.word 0x<hhhh>`: any 16-bit word written raw. -/
  | word (w : Word)
  deriving DecidableEq, Repr

/-- The word a written form stands for (R83). Which half an F word carries is its place in the pair, not a bit of it. -/
def Written.assemble : Written → Word
  | .ctrl wave fsel psel rst => ctrlWord wave fsel psel rst
  | .freqLo s d | .freqHi s d => if s then encode (.freq1 d) else encode (.freq0 d)
  | .phase s d => if s then encode (.phase1 false d) else encode (.phase0 false d)
  | .word w => w

end Sys2Proof.Machine
end

