-- ==== Sys2Proof/Machine/Observe.lean ====
section
/-! DEFINITION. What the chip outputs, as far as the model knows it: `observe(T)` (10_state.md rules R28, R29). -/

namespace Sys2Proof.Machine

/-- The observation of the target: the output held in reset, or running at a frequency, phase and shape (R28). -/
inductive Observation where
  | held
  | run (freqHz phaseDeg : Rat) (wave : Shape)
  deriving DecidableEq, Repr

/-- `T.FREQ[...] * REF_CLK_HZ / 2^28` (R28). -/
def freqOfWord (ref : Rat) (fw : FreqWord) : Rat := (fw.toNat : Rat) * ref / 2 ^ 28

/-- `T.PHASE[...] * 360 / 2^12` (R28). -/
def phaseOfWord (pw : PhaseWord) : Rat := (pw.toNat : Rat) * 360 / 2 ^ 12

/-- `observe(T)` (R28); `none` is "no value" (R29). -/
def observe (ref : Rat) (t : Target) : Option Observation :=
  match t.ctrl with
  | none => none
  | some c =>
    if ctrlReset c then some .held
    else match t.freq.get (ctrlFselect c), t.phase.get (ctrlPselect c), waveOf c with
      | some fw, some pw, some wave => some (.run (freqOfWord ref fw) (phaseOfWord pw) wave)
      | _, _, _ => none

/-- The observation of a state's target, with the instance's clock. -/
def State.observation (s : State) : Option Observation := observe s.params.refClkHz s.target

end Sys2Proof.Machine
end

