-- ==== Sys2Proof/Safety.lean ====
section
/-! DEFINITION. What holds of every state a run reaches (`Inv`), and when the shadow agrees with the target
(43_framing.md rule R170). -/

namespace Sys2Proof.Machine

/-- Where the block is in its operation: before its first word, or before a later word of the operation at the head. -/
def indexLegal (s : State) : Prop :=
  s.index = 0 ∨ ∃ op rest ws after, s.queue = op :: rest ∧ plan op s = .emit ws after ∧ s.index < ws.length

/-- The invariant of the machine. -/
structure Inv (s : State) : Prop where
  /-- The reference clock is positive (00_scope.md R7). -/
  clockPositive : 0 < s.params.refClkHz
  /-- A known control register holds no reserved or unsupported word (42_control.md R146). -/
  ctrlSupported : ∀ w, s.target.ctrl = some w → reservedOrUnsupported w = false
  /-- Before a control word has landed no frequency register and no latch is known (40_frequency.md R111). -/
  nothingBeforeCtrl : s.target.ctrl = none → s.target.freq = ⟨none, none⟩ ∧ s.target.pend = .unknown
  /-- The block's shadow never holds the reset bit: `S.RST` is 0 after `init` (10_state.md R21). -/
  shadowRuns : ∀ S, s.shadow = some S → S.rst = false
  /-- An initialised block has its shadow (70_reset_and_hazards.md R221). -/
  initialisedHasShadow : s.initialised = true → s.shadow.isSome = true
  /-- The running operation has a next word. -/
  atWord : indexLegal s

/-- Shadow agreement (43_framing.md R170): the block is initialised, the target's control register is the word of the
shadow, no half is pending, and the active registers hold known values. -/
structure Agrees (s : State) (S : Shadow) : Prop where
  initialised : s.initialised = true
  shadow : s.shadow = some S
  ctrl : s.target.ctrl = some (ctrlWord S.wave S.fsel S.psel S.rst)
  pend : s.target.pend = .none
  freq : (s.target.freq.get S.fsel).isSome = true
  phase : (s.target.phase.get S.psel).isSome = true

/-- The framing operations and `init` on inputs the codec accepts (43_framing.md §2, 70_reset_and_hazards.md R221). -/
def acceptedFraming (ref : Rat) : Operation → Prop
  | .setFrequency hz => freqValid ref hz
  | .setPhase _ => True
  | .setWaveform _ => True
  | .init f0 _ _ => freqValid ref f0
  | .encFreq _ _ | .encPhase _ _ | .encCtrl _ _ _ _ | .write16 _ => False

/-- No transaction of another user and no power cycle is due: the step is the block's own. -/
def quiet (s : State) : Prop := s.env = [] ∨ ∃ a rest, s.env = .answer a :: rest

/-- The transport's answers as environment events. -/
def answers (as : List Answer) : List EnvEvent := as.map .answer

end Sys2Proof.Machine
end

