-- ==== Sys2Proof/Certificates/Slice0/Obligations.lean ====
section
/-! DEFINITION. The statements for the provers. Each docstring names the rule of spec/ it formalises, or says that it is
derived and from what. -/

open Sys2Proof Sys2Proof.Machine

/-! ### Encoding -/

/-- Words written out bit by bit from the formats of 30_encoding.md R72 to R74 decode to what they stand for. -/
def Obligations.SpecWordsDecode : Prop :=
  decodeWord 0b0010000100000000#16 = .ctrl 0b10000100000000#14 ∧
  decodeWord 0b0101000011000111#16 = .freq0 0b01000011000111#14 ∧
  decodeWord 0b1000000000000001#16 = .freq1 0b00000000000001#14 ∧
  decodeWord 0b1100010000000000#16 = .phase0 false 0b010000000000#12 ∧
  decodeWord 0b1101010000000000#16 = .phase0 true 0b010000000000#12 ∧
  decodeWord 0b1110111111110101#16 = .phase1 false 0b111111110101#12

/-- Every instruction, with every operand at every value, comes back from its word, from the word's bits on the bus, and
from the table's numbering. Derived from the formats of 30_encoding.md §1. -/
def Obligations.DecodeEncodeAgree : Prop :=
  ∀ i : Instr, decodeWord (encode i) = i ∧ decodeBits (serialise (encode i)) = .ok i ∧
    decodeTableWord 16 (encode i).toNat = some i

/-- Every one of the 2^16 word values is the word of exactly one instruction. Derived: the spec marks 20_memory.md R51
as derived from R50. -/
def Obligations.EveryWordNamesOneRegister : Prop :=
  ∀ w : Word, encode (decodeWord w) = w ∧ ∀ i, encode i = w → i = decodeWord w

/-- Bit order on the bus: bit 15 first, bit 0 last, 16 bits, and the receiver has the word (20_memory.md R58). -/
def Obligations.SerialiseMostSignificantFirst : Prop :=
  ∀ w : Word, (serialise w).length = 16 ∧ (∀ k, k < 16 → (serialise w)[k]? = some (w.getLsbD (15 - k))) ∧
    deserialise (serialise w) = w

/-- A transfer that is not 16 bits long has no meaning and is refused (20_memory.md R57). -/
def Obligations.OddTransferRefused : Prop :=
  ∀ (bits : List Bool) (s : State), bits.length ≠ 16 →
    decodeBits bits = .error (.notSixteenBits bits.length) ∧
    receive bits s = .refused (.transferNotSixteenBits bits.length)

/-! ### The codec -/

/-- `enc_freq` (40_frequency.md R104, with R100's formula and R103's rejection): out of range is an error that records
the cause and `hz`; else two words under the register's tag, the LSB half first, whose halves are the rounded number. -/
def Obligations.EncFreqGivesTaggedHalves : Prop :=
  ∀ (ref hz : Rat) (s : Sel), 0 < ref →
    (hz < 0 ∨ ref / 2 < hz → encFreq ref hz s = .error (.invalidParameter .freqOutOfRange hz)) ∧
    (0 ≤ hz → hz ≤ ref / 2 → ∃ lo hi : Half,
      encFreq ref hz s = .ok [(if s then 0b10#2 else 0b01#2) ++ lo, (if s then 0b10#2 else 0b01#2) ++ hi] ∧
      ((hi ++ lo).toNat : Int) = ⌊hz * 2 ^ 28 / ref + 1 / 2⌋)

/-- A valid frequency's word is at most 2^27, and bit 27 is set exactly from `(2^27 - 1/2) * REF / 2^28` on. Derived:
the spec marks 40_frequency.md R102 as derived from R100 and R101. -/
def Obligations.FrequencyWordWithinRange : Prop :=
  ∀ ref hz : Rat, 0 < ref → freqValid ref hz →
    ((freqWordOf ref hz).toNat : Int) = ⌊hz * 2 ^ 28 / ref + 1 / 2⌋ ∧ (freqWordOf ref hz).toNat ≤ 2 ^ 27 ∧
    ((freqWordOf ref hz).getLsbD 27 = true ↔ (2 ^ 27 - 1 / 2) * ref / 2 ^ 28 ≤ hz)

/-- Decoding what `enc_freq` gives is within half a quantization step of `hz`. Derived: the spec marks 40_frequency.md
R107 and R108 as derived from R100. -/
def Obligations.FrequencyWithinHalfStep : Prop :=
  ∀ (ref hz : Rat) (s : Sel), 0 < ref → freqValid ref hz →
    ∃ w1 w2 f, encFreq ref hz s = .ok [w1, w2] ∧ decodeFreq ref w1 w2 = some f ∧ |f - hz| ≤ ref / 2 ^ 29

/-- `enc_phase` (41_phase.md R123, with R120's formula and R121: no input is rejected): one word, bit 12 clear, rounded
first and reduced mod 2^12 second. -/
def Obligations.EncPhaseGivesTaggedWord : Prop :=
  ∀ (deg : Rat) (s : Sel), ∃ d : PhaseWord,
    encPhase deg s = [(if s then 0b111#3 else 0b110#3) ++ 0#1 ++ d] ∧
    (d.toNat : Int) = ⌊deg * 2 ^ 12 / 360 + 1 / 2⌋ % 2 ^ 12

/-- Whole turns do not change the phase word. Derived: the spec marks 41_phase.md R122 as derived from R120. -/
def Obligations.PhasePeriodic : Prop :=
  ∀ (deg : Rat) (k : Int) (s : Sel), encPhase (deg + 360 * k) s = encPhase deg s

/-- The encoded phase is within half a step of `deg`, around the circle. Derived: the spec marks 41_phase.md R124 as
derived from R120. -/
def Obligations.PhaseWithinHalfStep : Prop :=
  ∀ deg : Rat, ∃ k : Int, |phaseOfWord (phaseWordOf deg) + 360 * k - deg| ≤ 360 / 8192

/-- `enc_ctrl` (42_control.md R141, with R142's waveform bits): one word, every field of it. -/
def Obligations.EncCtrlFields : Prop :=
  ∀ (wave : Waveform) (fsel psel rst : Bool), ∃ w : Word, encCtrl wave fsel psel rst = [w] ∧
    w.getLsbD 15 = false ∧ w.getLsbD 14 = false ∧ w.getLsbD 13 = true ∧ w.getLsbD 12 = false ∧
    w.getLsbD 11 = fsel ∧ w.getLsbD 10 = psel ∧ w.getLsbD 9 = false ∧ w.getLsbD 8 = rst ∧
    w.getLsbD 7 = false ∧ w.getLsbD 6 = false ∧ w.getLsbD 5 = decide (wave = .square) ∧ w.getLsbD 4 = false ∧
    w.getLsbD 3 = decide (wave = .square) ∧ w.getLsbD 2 = false ∧ w.getLsbD 1 = decide (wave = .triangle) ∧
    w.getLsbD 0 = false

/-- Distinct arguments give distinct control words, and `wave_of` reads the shape back. Derived: the spec marks
42_control.md R144 as derived from R142. -/
def Obligations.ControlWordInjective : Prop :=
  ∀ (w w' : Waveform) (f f' p p' r r' : Bool),
    (ctrlWord w f p r = ctrlWord w' f' p' r' → w = w' ∧ f = f' ∧ p = p' ∧ r = r') ∧
    waveOf (ctrlWord w f p r) = some w.shape

/-- The written forms of words stand for the words 30_encoding.md R83 says: `enc_ctrl`'s, an F word under the register's
tag for either half, a P word with bit 12 clear, and a raw word. Derived from R83, whose operations are another type. -/
def Obligations.WrittenFormsStandForWords : Prop :=
  (∀ wave fsel psel rst, encCtrl wave fsel psel rst = [(Written.ctrl wave fsel psel rst).assemble]) ∧
  (∀ (s : Sel) (d : Half), decodeWord (Written.freqLo s d).assemble = (if s then .freq1 d else .freq0 d) ∧
    decodeWord (Written.freqHi s d).assemble = if s then .freq1 d else .freq0 d) ∧
  (∀ (s : Sel) (d : PhaseWord), decodeWord (Written.phase s d).assemble = if s then .phase1 false d else .phase0 false d) ∧
  ∀ w, (Written.word w).assemble = w

/-! ### The words at the target -/

/-- CTRL (42_control.md R145, R146): refused exactly for R146's words, by a reason of R146; every other word becomes
`T.CTRL`, clears the latch, and makes a register whose half was pending unknown. Derived, for its last clause:
`enc_ctrl` never gives a refused word is the sentence of R146 that the spec itself marks as derived from R141. -/
def Obligations.CtrlWordAtTarget : Prop :=
  ∀ (f : BitVec 14) (s : State),
    let bad := f.getLsbD 9 || f.getLsbD 4 || f.getLsbD 2 || f.getLsbD 0 || !f.getLsbD 13 || f.getLsbD 12 ||
      f.getLsbD 7 || f.getLsbD 6 || (f.getLsbD 5 && f.getLsbD 1) || (f.getLsbD 5 && !f.getLsbD 3)
    (bad = true → ∃ r ∈ [Refusal.ctrlReservedBit, .ctrlB28Clear, .ctrlHlbSet, .ctrlSleep, .ctrlOpbitenMode,
      .ctrlHalfSquare], exec (.ctrl f) s = .refused r) ∧
    (bad = false → exec (.ctrl f) s = .next { s with
      target :=
        { freq := match s.target.pend with
            | .none => s.target.freq
            | .half s' _ => s.target.freq.set s' none
            | .unknown => ⟨none, none⟩
          phase := s.target.phase
          ctrl := some (0b00#2 ++ f)
          pend := .none } }) ∧
    (∀ wave fsel psel rst, encCtrl wave fsel psel rst = [0b00#2 ++ f] → bad = false)

/-- FREQ0 and FREQ1 (40_frequency.md R109, with R111's refusal): refused without a control word or with `B28 = 0`; else
the first half waits, the second of the same register latches 28 bits, and any other makes both registers and the latch
unknown. -/
def Obligations.FreqWordAtTarget : Prop :=
  ∀ (sel : Sel) (d : Half) (s : State),
    let i := if sel then Instr.freq1 d else Instr.freq0 d
    (s.target.ctrl = none → exec i s = .refused .freqBeforeCtrl) ∧
    (∀ c, s.target.ctrl = some c → c.getLsbD 13 = false → exec i s = .refused .freqB28Clear) ∧
    (∀ c, s.target.ctrl = some c → c.getLsbD 13 = true →
      (s.target.pend = .none → exec i s = .next { s with target := { s.target with pend := .half sel d } }) ∧
      (∀ lo, s.target.pend = .half sel lo → exec i s = .next { s with
        target := { s.target with freq := s.target.freq.set sel (some (d ++ lo)), pend := .none } }) ∧
      ((∃ s' lo, s' ≠ sel ∧ s.target.pend = .half s' lo) ∨ s.target.pend = .unknown → exec i s = .next { s with
        target := { s.target with freq := ⟨none, none⟩, pend := .unknown } }))

/-- PHASE0 and PHASE1 (41_phase.md R125): the register takes the 12 bits at once whatever bit 12 is; inside a frequency
pair the pending register and the latch become unknown. -/
def Obligations.PhaseWordAtTarget : Prop :=
  ∀ (sel : Sel) (x : Bool) (d : PhaseWord) (s : State),
    exec (if sel then .phase1 x d else .phase0 x d) s = .next { s with
      target :=
        { freq := match s.target.pend with
            | .none => s.target.freq
            | .half s' _ => s.target.freq.set s' none
            | .unknown => ⟨none, none⟩
          phase := s.target.phase.set sel (some d)
          ctrl := s.target.ctrl
          pend := match s.target.pend with
            | .none => .none
            | .half _ _ => .unknown
            | .unknown => .unknown } }

/-- A CTRL word written twice leaves the state as once, and so does a PHASE word that finds no half pending; an F word
written twice from an empty latch pairs with itself. Derived: the spec marks 20_memory.md R56 as derived. A PHASE word
that finds a half pending leaves the latch unknown, and its second copy then loses the other frequency register and
changes nothing else: so 41_phase.md R125's pseudocode says, from which R56 is derived and which the model follows against
R56's sentence (log 9). -/
def Obligations.RepeatedWords : Prop :=
  (∀ (f : BitVec 14) (s t : State), exec (.ctrl f) s = .next t → exec (.ctrl f) t = .next t) ∧
  (∀ (sel : Sel) (x : Bool) (d : PhaseWord) (s t : State),
    exec (if sel then .phase1 x d else .phase0 x d) s = .next t →
    ((∀ s' lo, s.target.pend ≠ .half s' lo) → exec (if sel then .phase1 x d else .phase0 x d) t = .next t) ∧
    (∀ s' lo, s.target.pend = .half s' lo → exec (if sel then .phase1 x d else .phase0 x d) t =
      .next { t with target := { t.target with freq := ⟨none, none⟩ } })) ∧
  (∀ (sel : Sel) (d : Half) (s t u : State), s.target.pend = .none →
    exec (if sel then .freq1 d else .freq0 d) s = .next t → exec (if sel then .freq1 d else .freq0 d) t = .next u →
    t.target.freq = s.target.freq ∧ u.target.freq = s.target.freq.set sel (some (d ++ d)))

/-- The frame of the five words: nothing but the target image changes; of the image, a word leaves every register it
does not name, except a frequency register whose pair it breaks. Derived from 40_frequency.md R109, 41_phase.md R125 and
42_control.md R145. -/
def Obligations.WordFrames : Prop :=
  ∀ (i : Instr) (s t : State), exec i s = .next t →
    t = { s with target := t.target } ∧
    match i with
    | .ctrl _ => t.target.phase = s.target.phase ∧ (s.target.pend = .none → t.target.freq = s.target.freq) ∧
        ∀ s' d, s.target.pend = .half s' d → t.target.freq.get (!s') = s.target.freq.get (!s')
    | .freq0 _ => t.target.phase = s.target.phase ∧ t.target.ctrl = s.target.ctrl ∧
        (s.target.pend = .none → t.target.freq = s.target.freq) ∧
        ∀ d, s.target.pend = .half false d → t.target.freq.get true = s.target.freq.get true
    | .freq1 _ => t.target.phase = s.target.phase ∧ t.target.ctrl = s.target.ctrl ∧
        (s.target.pend = .none → t.target.freq = s.target.freq) ∧
        ∀ d, s.target.pend = .half true d → t.target.freq.get false = s.target.freq.get false
    | .phase0 _ _ => t.target.phase.get true = s.target.phase.get true ∧ t.target.ctrl = s.target.ctrl ∧
        (s.target.pend = .none → t.target.freq = s.target.freq ∧ t.target.pend = .none) ∧
        ∀ s' d, s.target.pend = .half s' d → t.target.freq.get (!s') = s.target.freq.get (!s')
    | .phase1 _ _ => t.target.phase.get false = s.target.phase.get false ∧ t.target.ctrl = s.target.ctrl ∧
        (s.target.pend = .none → t.target.freq = s.target.freq ∧ t.target.pend = .none) ∧
        ∀ s' d, s.target.pend = .half s' d → t.target.freq.get (!s') = s.target.freq.get (!s')

/-- The second half drives the output at once if its register is active, and does not touch the output if it is not.
Derived from 40_frequency.md R110 and R109 and from 10_state.md R28's observation. -/
def Obligations.CompletedPairDrivesActiveOutput : Prop :=
  ∀ (sel : Sel) (d lo : Half) (s : State) (c : Word), s.target.ctrl = some c → c.getLsbD 13 = true →
    s.target.pend = .half sel lo → ∃ t, exec (if sel then .freq1 d else .freq0 d) s = .next t ∧
      (c.getLsbD 11 ≠ sel → t.observation = s.observation) ∧
      (c.getLsbD 11 = sel → ∀ pw wave, c.getLsbD 8 = false → s.target.phase.get (c.getLsbD 10) = some pw →
        waveOf c = some wave → t.observation = some (.run (((d ++ lo).toNat : Rat) * s.params.refClkHz / 2 ^ 28)
          ((pw.toNat : Rat) * 360 / 2 ^ 12) wave))

/-- A control word with `RESET = 1` holds the output and, with no half pending, leaves the frequency and phase registers
as they were. Derived from 42_control.md R147 and R145 and 10_state.md R28. -/
def Obligations.ResetWordHoldsOutput : Prop :=
  ∀ (f : BitVec 14) (s : State), reservedOrUnsupported (0b00#2 ++ f) = false → f.getLsbD 8 = true →
    ∃ t, exec (.ctrl f) s = .next t ∧ t.observation = some .held ∧ t.target.phase = s.target.phase ∧
      (s.target.pend = .none → t.target.freq = s.target.freq)

/-- `observe(T)`, derived from the pseudocode of 10_state.md R28 and from R29: held exactly under a known control word
with `RESET = 1`; running exactly when the control word is known with `RESET = 0` and selects a shape and the active
frequency register and the active phase register are known, at their values. A word with `OPBITEN = 1` and `MODE = 1`
selects no shape (42_control.md R142), and that nothing is then observed is the model's choice, log 17. -/
def Obligations.ObservationReadsActiveRegisters : Prop :=
  ∀ (ref : Rat) (t : Target),
    (observe ref t = some .held ↔ ∃ c, t.ctrl = some c ∧ c.getLsbD 8 = true) ∧
    ∀ f p wave, observe ref t = some (.run f p wave) ↔ ∃ c fw pw, t.ctrl = some c ∧ c.getLsbD 8 = false ∧
      t.freq.get (c.getLsbD 11) = some fw ∧ t.phase.get (c.getLsbD 10) = some pw ∧ waveOf c = some wave ∧
      f = (fw.toNat : Rat) * ref / 2 ^ 28 ∧ p = (pw.toNat : Rat) * 360 / 2 ^ 12

/-! ### Power-on, the bus, the transport -/

/-- Power-on and restart (70_reset_and_hazards.md R220): `S` is undefined, the block is not initialised and every
element of `T` is `⊥`, after reset and after the step of every restart. -/
def Obligations.PowerOnState : Prop :=
  State.reset.shadow = none ∧ State.reset.initialised = false ∧
  State.reset.target = ⟨⟨none, none⟩, ⟨none, none⟩, none, .unknown⟩ ∧
  ∀ (s : State) (env : List EnvEvent), s.env = .powerCycle :: env → ∃ t, step s = .next t ∧ t.shadow = none ∧
    t.initialised = false ∧ t.target = ⟨⟨none, none⟩, ⟨none, none⟩, none, .unknown⟩

/-- A step whose transaction is answered `ok` is the execution of the instruction the word's bits decode to, in the
state with the answer taken and the transaction on the bus; after it the operation is at its next word, or, after its
last, has returned `ok` with `S` at its new value and, after `init`, the block initialised. Derived from 43_framing.md
R160, R161 and R162 and 70_reset_and_hazards.md R221. -/
def Obligations.StepRunsDecodedWord : Prop :=
  ∀ (s : State) (op : Operation) (ops : List Operation) (ws rest : List Word) (after : Option Shadow) (w : Word)
    (env : List EnvEvent) (i : Instr), s.queue = op :: ops → plan op s = .emit ws after →
    ws.drop s.index = w :: rest → s.env = .answer .ok :: env → decodeBits (serialise w) = .ok i →
    step s = onNext
      (fun t => if rest = [] then { t with
          shadow := after
          initialised := match op with
            | .init _ _ _ => true
            | _ => s.initialised
          results := t.results ++ [.ok]
          queue := ops
          index := 0 }
        else { t with index := s.index + 1 })
      (exec i { s with env := env, bus := s.bus ++ [.toTarget w .ok] })

/-- A transaction answered `fail`, for every operation and state. Derived from the pseudocode of 43_framing.md R161 and
from 60_exceptions.md R201 and R206: `TransportFailure(i)` goes to the caller, `S` is unchanged, the later words are not
sent; the word was delivered whole or not at all, or with `CORRUPT_ON_FAILURE` all of `T` is unknown. Two clauses are
the model's choice: a failed word that was delivered and that the target refuses makes the step a refusal, and no
`TransportFailure` is returned (log 18); a re-run of `init` that fails leaves the block uninitialised while `S` stays
(log 4). -/
def Obligations.FailedWordRaisesTransportFailure : Prop :=
  ∀ (s : State) (op : Operation) (ops : List Operation) (ws rest : List Word) (after : Option Shadow) (w : Word)
    (env : List EnvEvent) (c : Delivery), s.queue = op :: ops → plan op s = .emit ws after →
    ws.drop s.index = w :: rest → s.env = .answer (.fail c) :: env →
    let sent := { s with env := env, bus := s.bus ++ [.toTarget w (.fail c)] }
    let failed := { sent with
      initialised := match op with
        | .init _ _ _ => false
        | _ => s.initialised
      results := s.results ++ [.error (.transportFailure s.index)]
      queue := ops
      index := 0 }
    (s.params.corruptOnFailure = true →
      step s = .next { failed with target := ⟨⟨none, none⟩, ⟨none, none⟩, none, .unknown⟩ }) ∧
    (s.params.corruptOnFailure = false → c = .lost → step s = .next failed) ∧
    (s.params.corruptOnFailure = false → c = .delivered →
      (∀ T, exec (decodeWord w) sent = .next { sent with target := T } → step s = .next { failed with target := T }) ∧
      (∀ r, exec (decodeWord w) sent = .refused r → step s = .refused r))

/-- Beyond the end of the environment's list the transport's answer is a free value: the step is the one with the drawn
answer in the list. Derived: the draw of 43_framing.md R160 in the model's form, log 3. -/
def Obligations.AnswerBeyondListIsFree : Prop :=
  ∀ (s : State) (op : Operation) (ops : List Operation) (ws rest : List Word) (after : Option Shadow) (w : Word),
    s.queue = op :: ops → plan op s = .emit ws after → ws.drop s.index = w :: rest → s.env = [] →
    step s = step { s with env := [.answer (Config.transportAnswer s.draws)], draws := s.draws + 1 }

/-- Another user's transaction between two words changes neither the block nor the target (20_memory.md R62). -/
def Obligations.ForeignTransactionChangesNothing : Prop :=
  ∀ (s : State) (bits : List Bool) (env : List EnvEvent), s.env = .foreign bits :: env →
    step s = .next { s with env := env, bus := s.bus ++ [.foreign bits] }

/-- What a power cycle leaves: the instance's parameters and the records of the outside world; the output has no value,
the operation it interrupted never returns, and an operation not begun still waits. Derived from 10_state.md §4; what
becomes of the waiting calls is the model's choice, log 6. -/
def Obligations.PowerCycleKeepsOnlyTheOutside : Prop :=
  ∀ (s : State) (env : List EnvEvent), s.env = .powerCycle :: env → ∃ t, step s = .next t ∧ t.observation = none ∧
    t.params = s.params ∧ t.env = env ∧ t.draws = s.draws ∧ t.results = s.results ∧ t.bus = s.bus ∧ t.index = 0 ∧
    (s.index = 0 → t.queue = s.queue) ∧ (s.index ≠ 0 → t.queue = s.queue.tail)

/-! ### Errors and refusals of operations -/

/-- The three framing operations are refused before `init` has returned `ok`, after a failed `init`, and while `S` is
undefined; no word is sent and nothing but the result and the queue changes. Derived from 43_framing.md R169; that the
refusal is the call's result and the run goes on is the model's choice, log 5. -/
def Obligations.CallBeforeInitRefused : Prop :=
  ∀ (s : State) (op : Operation) (ops : List Operation), s.queue = op :: ops → quiet s →
    s.initialised = false ∨ s.shadow = none →
    (∃ hz, op = .setFrequency hz) ∨ (∃ deg, op = .setPhase deg) ∨ (∃ wave, op = .setWaveform wave) →
    step s = .next { s with results := s.results ++ [.refusedBeforeInit], queue := ops, index := 0 }

/-- `InvalidParameter` (60_exceptions.md R200): a frequency out of range given to `enc_freq`, `set_frequency` or `init`
is detected before any word; the cause and `hz` are recorded under code 1, and neither `S` nor `T` changes. Derived,
because a re-run of `init` that fails so also leaves the block initialised: R10's "no state changes" against R224, the
model's choice, log 4. -/
def Obligations.InvalidParameterBeforeAnyWord : Prop :=
  ∀ (s : State) (op : Operation) (ops : List Operation) (hz : Rat), s.queue = op :: ops → quiet s →
    hz < 0 ∨ s.params.refClkHz / 2 < hz →
    (∃ sel, op = .encFreq hz sel) ∨ (op = .setFrequency hz ∧ s.initialised = true ∧ s.shadow ≠ none) ∨
      (∃ p w, op = .init hz p w) →
    step s = .next { s with
      results := s.results ++ [.error (.invalidParameter .freqOutOfRange hz)], queue := ops, index := 0 } ∧
    (OpError.invalidParameter .freqOutOfRange hz).code = 1

/-- The pure codec operations answer their words, send nothing, and change neither `S` nor `T`. Derived from 10_state.md
R20 and 30_encoding.md R81. -/
def Obligations.CodecOperationsPure : Prop :=
  ∀ (s : State) (op : Operation) (ops : List Operation) (ws : List Word), s.queue = op :: ops → quiet s →
    (∃ hz sel, op = .encFreq hz sel ∧ encFreq s.params.refClkHz hz sel = .ok ws) ∨
    (∃ deg sel, op = .encPhase deg sel ∧ encPhase deg sel = ws) ∨
    (∃ wave f p r, op = .encCtrl wave f p r ∧ encCtrl wave f p r = ws) →
    step s = .next { s with results := s.results ++ [.words ws], queue := ops, index := 0 }

/-! ### Whole operations -/

/-- `init`, derived from the pseudocode of 70_reset_and_hazards.md R221 and the table of R222, from any state, with all
five words transported: the words on the bus, the shadow, `initialised`, and of the target the control register, FREQ0,
PHASE0, the latch and the observation; FREQ1 keeps its value unless its half was pending or the latch was unknown, and
PHASE1 keeps its value. That a re-run keeps FREQ1 and PHASE1, where R222's table has `⊥`, is the model's choice, log 22. -/
def Obligations.InitEstablishesState : Prop :=
  ∀ (s : State) (f0 p0 : Rat) (w0 : Waveform) (ops : List Operation) (env : List EnvEvent),
    0 < s.params.refClkHz → freqValid s.params.refClkHz f0 → s.queue = .init f0 p0 w0 :: ops → s.index = 0 →
    s.env = answers [.ok, .ok, .ok, .ok, .ok] ++ env →
    ∃ (t : State) (lo hi : Half) (pw : PhaseWord), Host.Core.run Sys2Proof.core 5 s = .next t ∧
      ((hi ++ lo).toNat : Int) = ⌊f0 * 2 ^ 28 / s.params.refClkHz + 1 / 2⌋ ∧
      (pw.toNat : Int) = ⌊p0 * 2 ^ 12 / 360 + 1 / 2⌋ % 2 ^ 12 ∧
      t.shadow = some ⟨false, false, w0, false⟩ ∧ t.initialised = true ∧ t.queue = ops ∧ t.index = 0 ∧ t.env = env ∧
      t.results = s.results ++ [.ok] ∧
      t.bus = s.bus ++ [.toTarget (ctrlWord w0 false false true) .ok, .toTarget (0b01#2 ++ lo) .ok,
        .toTarget (0b01#2 ++ hi) .ok, .toTarget (0b110#3 ++ 0#1 ++ pw) .ok,
        .toTarget (ctrlWord w0 false false false) .ok] ∧
      t.target.ctrl = some (ctrlWord w0 false false false) ∧ t.target.pend = .none ∧
      t.target.freq.get false = some (hi ++ lo) ∧ t.target.phase.get false = some pw ∧
      t.target.freq.get true = (match s.target.pend with
        | .none => s.target.freq.get true
        | .half s' _ => if s' then none else s.target.freq.get true
        | .unknown => none) ∧
      t.target.phase.get true = s.target.phase.get true ∧
      t.observation = some (.run (((hi ++ lo).toNat : Rat) * s.params.refClkHz / 2 ^ 28)
        ((pw.toNat : Rat) * 360 / 2 ^ 12) w0.shape)

/-- A failed `init` leaves the block uninitialised, from any state and whichever word fails: `S` is as it was,
`TransportFailure(i)` returns, and a framing operation that the caller calls next is refused. Derived from
70_reset_and_hazards.md R224 and 43_framing.md R169; that R224 binds a re-run of `init` on an initialised block too is
the model's choice, log 4, and that the refusal is the call's result is log 5. -/
def Obligations.FailedInitLeavesUninitialised : Prop :=
  ∀ (s : State) (f0 p0 : Rat) (w0 : Waveform) (ops : List Operation) (i : Nat) (c : Delivery) (env : List EnvEvent),
    freqValid s.params.refClkHz f0 → s.queue = .init f0 p0 w0 :: ops → s.index = 0 → i < 5 →
    s.env = answers (List.replicate i .ok ++ [.fail c]) ++ env →
    ∃ t : State, Host.Core.run Sys2Proof.core (i + 1) s = .next t ∧ t.initialised = false ∧ t.shadow = s.shadow ∧
      t.results = s.results ++ [.error (.transportFailure i)] ∧ t.queue = ops ∧ t.index = 0 ∧ t.env = env ∧
      ∀ op ops', ops = op :: ops' → quiet t →
        (∃ hz, op = .setFrequency hz) ∨ (∃ deg, op = .setPhase deg) ∨ (∃ wave, op = .setWaveform wave) →
        step t = .next { t with results := t.results ++ [.refusedBeforeInit], queue := ops', index := 0 }

/-- While the words of `init` before the last land, the output is held; it runs when the fifth lands. Derived: the spec
marks 70_reset_and_hazards.md R223 as derived from R221 and 10_state.md R28. -/
def Obligations.OutputHeldDuringInit : Prop :=
  ∀ (s : State) (f0 p0 : Rat) (w0 : Waveform) (ops : List Operation) (env : List EnvEvent) (k : Nat),
    0 < s.params.refClkHz → freqValid s.params.refClkHz f0 → s.queue = .init f0 p0 w0 :: ops → s.index = 0 →
    s.env = answers [.ok, .ok, .ok, .ok, .ok] ++ env → 1 ≤ k → k ≤ 5 →
    ∃ t : State, Host.Core.run Sys2Proof.core k s = .next t ∧
      if k < 5 then t.observation = some .held else ∃ f p, t.observation = some (.run f p w0.shape)

/-- `set_frequency`, derived from the pseudocode of 43_framing.md R163, with all three words transported, from a state
where the shadow agrees: the two halves and the control word on the bus, the inactive register written, then active, and
`S.FSEL` flipped. -/
def Obligations.SetFrequencyWritesThenSwaps : Prop :=
  ∀ (s : State) (S : Shadow) (hz : Rat) (ops : List Operation) (env : List EnvEvent),
    Agrees s S → 0 < s.params.refClkHz → freqValid s.params.refClkHz hz → s.queue = .setFrequency hz :: ops →
    s.index = 0 → s.env = answers [.ok, .ok, .ok] ++ env →
    ∃ (t : State) (lo hi : Half), Host.Core.run Sys2Proof.core 3 s = .next t ∧
      ((hi ++ lo).toNat : Int) = ⌊hz * 2 ^ 28 / s.params.refClkHz + 1 / 2⌋ ∧
      t = { s with
        shadow := some { S with fsel := !S.fsel }
        target := { s.target with
          freq := s.target.freq.set (!S.fsel) (some (hi ++ lo))
          ctrl := some (ctrlWord S.wave (!S.fsel) S.psel S.rst) }
        queue := ops
        env := env
        results := s.results ++ [.ok]
        bus := s.bus ++ [.toTarget ((if S.fsel then 0b01#2 else 0b10#2) ++ lo) .ok,
          .toTarget ((if S.fsel then 0b01#2 else 0b10#2) ++ hi) .ok,
          .toTarget (ctrlWord S.wave (!S.fsel) S.psel S.rst) .ok] }

/-- `set_phase`, derived from the pseudocode of 43_framing.md R165, with both words transported, from a state where the
shadow agrees. -/
def Obligations.SetPhaseWritesThenSwaps : Prop :=
  ∀ (s : State) (S : Shadow) (deg : Rat) (ops : List Operation) (env : List EnvEvent),
    Agrees s S → s.queue = .setPhase deg :: ops → s.index = 0 → s.env = answers [.ok, .ok] ++ env →
    ∃ (t : State) (pw : PhaseWord), Host.Core.run Sys2Proof.core 2 s = .next t ∧
      (pw.toNat : Int) = ⌊deg * 2 ^ 12 / 360 + 1 / 2⌋ % 2 ^ 12 ∧
      t = { s with
        shadow := some { S with psel := !S.psel }
        target := { s.target with
          phase := s.target.phase.set (!S.psel) (some pw)
          ctrl := some (ctrlWord S.wave S.fsel (!S.psel) S.rst) }
        queue := ops
        env := env
        results := s.results ++ [.ok]
        bus := s.bus ++ [.toTarget ((if S.psel then 0b110#3 else 0b111#3) ++ 0#1 ++ pw) .ok,
          .toTarget (ctrlWord S.wave S.fsel (!S.psel) S.rst) .ok] }

/-- `set_waveform`, derived from the pseudocode of 43_framing.md R167, with its word transported, from a state where the
shadow agrees. -/
def Obligations.SetWaveformSendsOneControlWord : Prop :=
  ∀ (s : State) (S : Shadow) (wave : Waveform) (ops : List Operation) (env : List EnvEvent),
    Agrees s S → s.queue = .setWaveform wave :: ops → s.index = 0 → s.env = .answer .ok :: env →
    step s = .next { s with
      shadow := some { S with wave := wave }
      target := { s.target with ctrl := some (ctrlWord wave S.fsel S.psel S.rst) }
      queue := ops
      env := env
      results := s.results ++ [.ok]
      bus := s.bus ++ [.toTarget (ctrlWord wave S.fsel S.psel S.rst) .ok] }

/-- Write-then-swap order (70_reset_and_hazards.md R232): until the control word of `set_frequency` or `set_phase`
lands, the active registers keep their values and the output is the old one; the new value is whole in the inactive
register when only the control word is left. -/
def Obligations.OldOutputUntilSwap : Prop :=
  ∀ (s : State) (S : Shadow) (ops : List Operation) (env : List EnvEvent), Agrees s S → s.index = 0 →
    (∀ hz, freqValid s.params.refClkHz hz → s.queue = .setFrequency hz :: ops →
      s.env = answers [.ok, .ok] ++ env → ∀ k ≤ 2, ∃ t : State, Host.Core.run Sys2Proof.core k s = .next t ∧
        t.target.freq.get S.fsel = s.target.freq.get S.fsel ∧ t.target.phase = s.target.phase ∧
        t.target.ctrl = s.target.ctrl ∧ t.observation = s.observation ∧
        (k = 2 → t.target.freq.get (!S.fsel) = some (freqWordOf s.params.refClkHz hz))) ∧
    (∀ deg, s.queue = .setPhase deg :: ops → s.env = .answer .ok :: env → ∃ t : State, step s = .next t ∧
        t.target.phase.get S.psel = s.target.phase.get S.psel ∧ t.target.freq = s.target.freq ∧
        t.target.ctrl = s.target.ctrl ∧ t.observation = s.observation ∧
        t.target.phase.get (!S.psel) = some (phaseWordOf deg))

/-- Shadow agreement: from a state where the shadow agrees, every sequence of framing operations and `init`s on accepted
inputs, all words transported, returns `ok` each time and ends in agreement. Derived: the spec marks 43_framing.md R170
as derived. `Agrees` asks only that the active registers are known, less than R170's "hold the last frequency and phase
set": the values are in `InitEstablishesState`, `SetFrequencyWritesThenSwaps` and `SetPhaseWritesThenSwaps`. -/
def Obligations.AgreementOverFramingRuns : Prop :=
  ∀ (ops : List Operation) (s : State) (S : Shadow), Agrees s S → 0 < s.params.refClkHz → s.index = 0 →
    s.queue = ops → (∀ op ∈ ops, acceptedFraming s.params.refClkHz op) →
    s.env = answers (List.replicate (5 * ops.length) .ok) →
    ∃ (n : Nat) (t : State) (S' : Shadow), Host.Core.run Sys2Proof.core n s = .next t ∧ Agrees t S' ∧ t.queue = [] ∧
      t.index = 0 ∧ t.results = s.results ++ List.replicate ops.length .ok

/-- An operation other than a raw word whose word `i` is the first to fail, from a state where the shadow agrees:
words 0 to `i` were sent and no later one, `TransportFailure(i)` with code 2 returns, `S` is as before the operation,
the block is uninitialised after `init` and as before after the others, and the target is what the words before `i`
left, with word `i` whole, not at all, or all of it unknown. Derived from the pseudocode of 43_framing.md R161 and
from 60_exceptions.md R201 and 70_reset_and_hazards.md R224; that R224 binds a re-run of `init` is the model's choice,
log 4. -/
def Obligations.FailureStopsTheSequence : Prop :=
  ∀ (s : State) (S : Shadow) (op : Operation) (ops : List Operation) (ws : List Word) (after : Option Shadow) (i : Nat)
    (w : Word) (c : Delivery) (env : List EnvEvent), Agrees s S → s.index = 0 → s.queue = op :: ops →
    (∀ x, op ≠ .write16 x) → plan op s = .emit ws after → ws[i]? = some w →
    s.env = answers (List.replicate i .ok ++ [.fail c]) ++ env →
    ∃ u t : State, Host.Core.run Sys2Proof.core i s = .next u ∧ Host.Core.run Sys2Proof.core (i + 1) s = .next t ∧
      u.bus = s.bus ++ (ws.take i).map (Transaction.toTarget · .ok) ∧ t.bus = u.bus ++ [.toTarget w (.fail c)] ∧
      t.shadow = s.shadow ∧ ((∃ f p w0, op = .init f p w0) → t.initialised = false) ∧
      ((∀ f p w0, op ≠ .init f p w0) → t.initialised = s.initialised) ∧
      t.results = s.results ++ [.error (.transportFailure i)] ∧
      (OpError.transportFailure i).code = 2 ∧ t.queue = ops ∧ t.index = 0 ∧ t.env = env ∧
      (s.params.corruptOnFailure = true → t.target = ⟨⟨none, none⟩, ⟨none, none⟩, none, .unknown⟩) ∧
      (s.params.corruptOnFailure = false → c = .lost → t.target = u.target) ∧
      (s.params.corruptOnFailure = false → c = .delivered →
        ∃ v, exec (decodeWord w) u = .next v ∧ t.target = v.target)

/-- After a failure the retry can go wrong: a delivered first word, or a lost second word, leaves a half pending; the
next `set_frequency` then returns `ok` with the output unknown. Derived: the spec marks 70_reset_and_hazards.md R233 as
derived. -/
def Obligations.RetryAfterPendingHalfLosesOutput : Prop :=
  ∀ (s : State) (S : Shadow) (h1 h2 : Rat) (env : List EnvEvent), Agrees s S → s.index = 0 → S.rst = false →
    s.params.corruptOnFailure = false → freqValid s.params.refClkHz h1 → freqValid s.params.refClkHz h2 →
    s.queue = [.setFrequency h1, .setFrequency h2] →
    (s.env = answers [.fail .delivered, .ok, .ok, .ok] ++ env → ∃ t : State,
      Host.Core.run Sys2Proof.core 4 s = .next t ∧ t.observation = none ∧ t.target.freq.get (!S.fsel) = none ∧
      t.results = s.results ++ [.error (.transportFailure 0), .ok]) ∧
    (s.env = answers [.ok, .fail .lost, .ok, .ok, .ok] ++ env → ∃ t : State,
      Host.Core.run Sys2Proof.core 5 s = .next t ∧ t.observation = none ∧ t.target.freq.get (!S.fsel) = none ∧
      t.results = s.results ++ [.error (.transportFailure 1), .ok])

/-- The other failures leave a retry correct: a lost first word, a delivered second word, a lost control word. Derived
as above. -/
def Obligations.RetryOtherwiseRestoresAgreement : Prop :=
  ∀ (s : State) (S : Shadow) (h1 h2 : Rat) (env : List EnvEvent), Agrees s S → s.index = 0 →
    s.params.corruptOnFailure = false → freqValid s.params.refClkHz h1 → freqValid s.params.refClkHz h2 →
    s.queue = [.setFrequency h1, .setFrequency h2] →
    (s.env = answers [.fail .lost, .ok, .ok, .ok] ++ env → ∃ t : State,
      Host.Core.run Sys2Proof.core 4 s = .next t ∧ Agrees t { S with fsel := !S.fsel } ∧
      t.target.freq.get (!S.fsel) = some (freqWordOf s.params.refClkHz h2)) ∧
    (s.env = answers [.ok, .fail .delivered, .ok, .ok, .ok] ++ env → ∃ t : State,
      Host.Core.run Sys2Proof.core 5 s = .next t ∧ Agrees t { S with fsel := !S.fsel } ∧
      t.target.freq.get (!S.fsel) = some (freqWordOf s.params.refClkHz h2)) ∧
    (s.env = answers [.ok, .ok, .fail .lost, .ok, .ok, .ok] ++ env → ∃ t : State,
      Host.Core.run Sys2Proof.core 6 s = .next t ∧ Agrees t { S with fsel := !S.fsel } ∧
      t.target.freq.get (!S.fsel) = some (freqWordOf s.params.refClkHz h2))

/-- A control word that failed but was delivered: the target has switched and the shadow has not, so the retry writes
the register that is active. Derived as above. -/
def Obligations.RetryAfterDeliveredSwapWritesActive : Prop :=
  ∀ (s : State) (S : Shadow) (h1 h2 : Rat) (env : List EnvEvent), Agrees s S → s.index = 0 →
    s.params.corruptOnFailure = false → freqValid s.params.refClkHz h1 → freqValid s.params.refClkHz h2 →
    s.queue = [.setFrequency h1, .setFrequency h2] →
    s.env = answers [.ok, .ok, .fail .delivered, .ok, .ok] ++ env →
    ∃ t u : State, Host.Core.run Sys2Proof.core 3 s = .next t ∧ t.shadow = some S ∧
      t.target.ctrl.map ctrlFselect = some (!S.fsel) ∧
      t.target.freq.get (!S.fsel) = some (freqWordOf s.params.refClkHz h1) ∧
      Host.Core.run Sys2Proof.core 5 s = .next u ∧ u.target.ctrl = t.target.ctrl ∧
      u.target.freq.get (!S.fsel) = some (freqWordOf s.params.refClkHz h2)

/-- Whatever the transport answers, an operation other than a raw word returns to its caller within five steps from a
state where the shadow agrees. Derived: the spec marks 70_reset_and_hazards.md R238 as derived. -/
def Obligations.OperationReturnsWithinFiveSteps : Prop :=
  ∀ (s : State) (S : Shadow) (op : Operation) (ops : List Operation) (as : List Answer) (env : List EnvEvent),
    Agrees s S → s.index = 0 → s.queue = op :: ops → (∀ w, op ≠ .write16 w) → as.length = 5 →
    s.env = answers as ++ env →
    ∃ (n : Nat) (t : State) (r : Result), 1 ≤ n ∧ n ≤ 5 ∧ Host.Core.run Sys2Proof.core n s = .next t ∧ t.queue = ops ∧
      t.index = 0 ∧ t.results = s.results ++ [r]

/-! ### The whole machine -/

/-- `S` is written only by a framing operation or `init`, when its last word was transported, or lost by a power cycle.
Derived from 10_state.md R22 and R32. -/
def Obligations.ShadowWrittenOnlyOnSuccess : Prop :=
  ∀ s t : State, step s = .next t → t.shadow ≠ s.shadow →
    (∃ env, s.env = .powerCycle :: env ∧ t.shadow = none) ∨
    (∃ op ops ws after w, s.queue = op :: ops ∧ (∀ x, op ≠ .write16 x) ∧ plan op s = .emit ws after ∧
      ws.drop s.index = [w] ∧
      t.bus = s.bus ++ [.toTarget w .ok] ∧ t.results = s.results ++ [.ok] ∧ t.shadow = after)

/-- The block becomes initialised only when the last word of `init` was transported, with `ok` returned and `S` at its
new value, and uninitialised only by a word of `init` that failed, with `S` as it was, or by a power cycle. Derived
from 70_reset_and_hazards.md R221, R224 and 10_state.md R32; that R224 binds a re-run of `init` is the model's choice,
log 4. -/
def Obligations.InitialisedOnlyByInit : Prop :=
  ∀ s t : State, step s = .next t → t.initialised ≠ s.initialised →
    (∃ env, s.env = .powerCycle :: env ∧ t.initialised = false) ∨
    (∃ f0 p0 w0 ops ws after w rest, s.queue = .init f0 p0 w0 :: ops ∧ plan (.init f0 p0 w0) s = .emit ws after ∧
      ws.drop s.index = w :: rest ∧
      ((rest = [] ∧ t.initialised = true ∧ t.bus = s.bus ++ [.toTarget w .ok] ∧ t.results = s.results ++ [.ok] ∧
          t.shadow = after) ∨
        (∃ c, t.initialised = false ∧ t.bus = s.bus ++ [.toTarget w (.fail c)] ∧
          t.results = s.results ++ [.error (.transportFailure s.index)] ∧ t.shadow = s.shadow)))

/-- The target changes only by a word of the block, as the word and the transport's answer say, or by a power cycle; the
words reach it one a step and in the order of the bus's history. Derived from 20_memory.md R60 and R61. -/
def Obligations.TargetFollowsTheBus : Prop :=
  ∀ s t : State, step s = .next t →
    (t.bus = s.bus ∧ (t.target = s.target ∨ ∃ env, s.env = .powerCycle :: env)) ∨
    (∃ bits, t.bus = s.bus ++ [.foreign bits] ∧ t.target = s.target) ∨
    (∃ w a, t.bus = s.bus ++ [.toTarget w a] ∧
      (a = .ok → ∃ u, exec (decodeWord w) s = .next u ∧ t.target = u.target) ∧
      (∀ c, a = .fail c → t.shadow = s.shadow ∧ t.results = s.results ++ [.error (.transportFailure s.index)] ∧
        (t.target = s.target ∨ (s.params.corruptOnFailure = true ∧ t.target = .powerOn) ∨
          ∃ u, exec (decodeWord w) s = .next u ∧ t.target = u.target)))

/-- Every word an operation of the block emits is a permitted encoding, has phase bit 12 clear, and if it is a control
word the target accepts it (raw words are their caller's). Derived from 42_control.md R141 and R146 and 41_phase.md
R123. -/
def Obligations.BlockWordsAreAccepted : Prop :=
  ∀ (op : Operation) (s : State) (ws : List Word) (after : Option Shadow), (∀ w, op ≠ .write16 w) →
    plan op s = .emit ws after → ∀ w ∈ ws, (decodeWord w).wellFormed = true ∧
      match decodeWord w with
      | .ctrl f => ∀ u : State, ∃ t, exec (.ctrl f) u = .next t
      | .freq0 _ => True
      | .freq1 _ => True
      | .phase0 x _ => x = false
      | .phase1 x _ => x = false

/-- The invariant of Safety holds after reset. Derived from 70_reset_and_hazards.md R220 and the positive clock of
00_scope.md R7, log 1. -/
def Obligations.ResetMeetsInv : Prop := Inv State.reset

/-- Every step keeps the invariant: the control register never holds a reserved or unsupported word, no frequency is
known before a control word, the shadow never holds the reset bit, an initialised block has its shadow, and the running
operation has a next word. Derived from 42_control.md R146, 40_frequency.md R111, 10_state.md R21 and
70_reset_and_hazards.md R221. -/
def Obligations.StepKeepsInv : Prop := ∀ s t : State, Inv s → step s = .next t → Inv t
end

