-- ==== Sys2Proof/Laws/State.lean ====
section
/-! SUPPORT. What each named update does to each field of the state, by `rfl`. -/

namespace Sys2Proof.Machine

variable (s : State) (r : Result) (e : OpError) (a : Option Shadow) (b : Bool) (x : Transaction) (bits : List Bool)

/-! ### finish -/

@[simp] theorem finish_params : (finish r s).params = s.params := rfl
@[simp] theorem finish_shadow : (finish r s).shadow = s.shadow := rfl
@[simp] theorem finish_initialised : (finish r s).initialised = s.initialised := rfl
@[simp] theorem finish_target : (finish r s).target = s.target := rfl
@[simp] theorem finish_queue : (finish r s).queue = s.queue.tail := rfl
@[simp] theorem finish_index : (finish r s).index = 0 := rfl
@[simp] theorem finish_env : (finish r s).env = s.env := rfl
@[simp] theorem finish_draws : (finish r s).draws = s.draws := rfl
@[simp] theorem finish_results : (finish r s).results = s.results ++ [r] := rfl
@[simp] theorem finish_bus : (finish r s).bus = s.bus := rfl

/-! ### raiseError -/

@[simp] theorem raiseError_params : (raiseError e s).params = s.params := rfl
@[simp] theorem raiseError_shadow : (raiseError e s).shadow = s.shadow := rfl
@[simp] theorem raiseError_initialised : (raiseError e s).initialised = s.initialised := rfl
@[simp] theorem raiseError_target : (raiseError e s).target = s.target := rfl
@[simp] theorem raiseError_queue : (raiseError e s).queue = s.queue.tail := rfl
@[simp] theorem raiseError_index : (raiseError e s).index = 0 := rfl
@[simp] theorem raiseError_env : (raiseError e s).env = s.env := rfl
@[simp] theorem raiseError_draws : (raiseError e s).draws = s.draws := rfl
@[simp] theorem raiseError_results : (raiseError e s).results = s.results ++ [.error e] := rfl
@[simp] theorem raiseError_bus : (raiseError e s).bus = s.bus := rfl

/-! ### complete -/

@[simp] theorem complete_params : (complete a b s).params = s.params := rfl
@[simp] theorem complete_shadow : (complete a b s).shadow = a := rfl
@[simp] theorem complete_initialised : (complete a b s).initialised = b := rfl
@[simp] theorem complete_target : (complete a b s).target = s.target := rfl
@[simp] theorem complete_queue : (complete a b s).queue = s.queue.tail := rfl
@[simp] theorem complete_index : (complete a b s).index = 0 := rfl
@[simp] theorem complete_env : (complete a b s).env = s.env := rfl
@[simp] theorem complete_draws : (complete a b s).draws = s.draws := rfl
@[simp] theorem complete_results : (complete a b s).results = s.results ++ [.ok] := rfl
@[simp] theorem complete_bus : (complete a b s).bus = s.bus := rfl

/-! ### failWord -/

@[simp] theorem failWord_params : (failWord b s).params = s.params := rfl
@[simp] theorem failWord_shadow : (failWord b s).shadow = s.shadow := rfl
@[simp] theorem failWord_initialised : (failWord b s).initialised = b := rfl
@[simp] theorem failWord_target : (failWord b s).target = s.target := rfl
@[simp] theorem failWord_queue : (failWord b s).queue = s.queue.tail := rfl
@[simp] theorem failWord_index : (failWord b s).index = 0 := rfl
@[simp] theorem failWord_env : (failWord b s).env = s.env := rfl
@[simp] theorem failWord_draws : (failWord b s).draws = s.draws := rfl
@[simp] theorem failWord_results :
    (failWord b s).results = s.results ++ [.error (.transportFailure s.index)] := rfl
@[simp] theorem failWord_bus : (failWord b s).bus = s.bus := rfl

/-! ### record and foreignTransaction -/

@[simp] theorem record_params : (record x s).params = s.params := rfl
@[simp] theorem record_shadow : (record x s).shadow = s.shadow := rfl
@[simp] theorem record_initialised : (record x s).initialised = s.initialised := rfl
@[simp] theorem record_target : (record x s).target = s.target := rfl
@[simp] theorem record_queue : (record x s).queue = s.queue := rfl
@[simp] theorem record_index : (record x s).index = s.index := rfl
@[simp] theorem record_env : (record x s).env = s.env := rfl
@[simp] theorem record_draws : (record x s).draws = s.draws := rfl
@[simp] theorem record_results : (record x s).results = s.results := rfl
@[simp] theorem record_bus : (record x s).bus = s.bus ++ [x] := rfl
@[simp] theorem foreignTransaction_eq : foreignTransaction bits s = record (.foreign bits) s := rfl

/-! ### powerCycle -/

@[simp] theorem dropRunning_params : (dropRunning s).params = s.params := by unfold dropRunning; split <;> rfl
@[simp] theorem dropRunning_env : (dropRunning s).env = s.env := by unfold dropRunning; split <;> rfl
@[simp] theorem dropRunning_draws : (dropRunning s).draws = s.draws := by unfold dropRunning; split <;> rfl
@[simp] theorem dropRunning_results : (dropRunning s).results = s.results := by unfold dropRunning; split <;> rfl
@[simp] theorem dropRunning_bus : (dropRunning s).bus = s.bus := by unfold dropRunning; split <;> rfl
@[simp] theorem dropRunning_index : (dropRunning s).index = 0 := by unfold dropRunning; split <;> simp_all
@[simp] theorem dropRunning_queue :
    (dropRunning s).queue = if s.index = 0 then s.queue else s.queue.tail := by unfold dropRunning; split <;> rfl
@[simp] theorem powerCycle_params : (powerCycle s).params = s.params := by simp [powerCycle]
@[simp] theorem powerCycle_shadow : (powerCycle s).shadow = none := rfl
@[simp] theorem powerCycle_initialised : (powerCycle s).initialised = false := rfl
@[simp] theorem powerCycle_target : (powerCycle s).target = .powerOn := rfl
@[simp] theorem powerCycle_queue : (powerCycle s).queue = (dropRunning s).queue := rfl
@[simp] theorem powerCycle_index : (powerCycle s).index = 0 := by simp [powerCycle]
@[simp] theorem powerCycle_env : (powerCycle s).env = s.env := by simp [powerCycle]
@[simp] theorem powerCycle_draws : (powerCycle s).draws = s.draws := by simp [powerCycle]
@[simp] theorem powerCycle_results : (powerCycle s).results = s.results := by simp [powerCycle]
@[simp] theorem powerCycle_bus : (powerCycle s).bus = s.bus := by simp [powerCycle]

/-! ### The transport's answer -/

@[simp] theorem takeAnswer_params : (takeAnswer s).2.params = s.params := by unfold takeAnswer; split <;> rfl
@[simp] theorem takeAnswer_shadow : (takeAnswer s).2.shadow = s.shadow := by unfold takeAnswer; split <;> rfl
@[simp] theorem takeAnswer_initialised : (takeAnswer s).2.initialised = s.initialised := by
  unfold takeAnswer; split <;> rfl
@[simp] theorem takeAnswer_target : (takeAnswer s).2.target = s.target := by unfold takeAnswer; split <;> rfl
@[simp] theorem takeAnswer_queue : (takeAnswer s).2.queue = s.queue := by unfold takeAnswer; split <;> rfl
@[simp] theorem takeAnswer_index : (takeAnswer s).2.index = s.index := by unfold takeAnswer; split <;> rfl
@[simp] theorem takeAnswer_results : (takeAnswer s).2.results = s.results := by unfold takeAnswer; split <;> rfl
@[simp] theorem takeAnswer_bus : (takeAnswer s).2.bus = s.bus := by unfold takeAnswer; split <;> rfl

/-- An answer the environment gives is taken from its list. -/
theorem takeAnswer_of_env {s : State} {b : Answer} {rest : List EnvEvent} (h : s.env = .answer b :: rest) :
    takeAnswer s = (b, { s with env := rest }) := by simp [takeAnswer, h]

/-- Beyond the end of the environment's list the answer is the free draw of the counter. -/
theorem takeAnswer_of_empty {s : State} (h : s.env = []) :
    takeAnswer s = (Config.transportAnswer s.draws, { s with draws := s.draws + 1 }) := by simp [takeAnswer, h]

/-! ### Slots and the target image -/

section
variable {α : Type} (p : Slots α) (v : α) (i j : Sel)

@[simp] theorem Slots.get_set_same : (p.set i v).get i = v := by cases i <;> rfl
@[simp] theorem Slots.get_set_other (h : j ≠ i) : (p.set i v).get j = p.get j := by
  cases i <;> cases j <;> first | rfl | exact absurd rfl h
@[simp] theorem Slots.get_set_not : (p.set (!i) v).get i = p.get i := by cases i <;> rfl
@[simp] theorem Slots.get_mk_same (a : α) : (Slots.mk a a).get i = a := by cases i <;> rfl

/-- A pair is its two slots. -/
theorem Slots.ext_get {q : Slots α} (h : ∀ k, p.get k = q.get k) : p = q := by
  cases p; cases q
  have h0 := h false
  have h1 := h true
  simp_all [Slots.get]
end

section
variable (t : Target) (i : Sel) (f : Option FreqWord) (p : Option PhaseWord)

@[simp] theorem Target.setFreq_freq : (t.setFreq i f).freq = t.freq.set i f := rfl
@[simp] theorem Target.setFreq_phase : (t.setFreq i f).phase = t.phase := rfl
@[simp] theorem Target.setFreq_ctrl : (t.setFreq i f).ctrl = t.ctrl := rfl
@[simp] theorem Target.setFreq_pend : (t.setFreq i f).pend = t.pend := rfl
@[simp] theorem Target.setPhase_freq : (t.setPhase i p).freq = t.freq := rfl
@[simp] theorem Target.setPhase_phase : (t.setPhase i p).phase = t.phase.set i p := rfl
@[simp] theorem Target.setPhase_ctrl : (t.setPhase i p).ctrl = t.ctrl := rfl
@[simp] theorem Target.setPhase_pend : (t.setPhase i p).pend = t.pend := rfl
@[simp] theorem Target.forgetFreqs_freq : t.forgetFreqs.freq = ⟨none, none⟩ := rfl
@[simp] theorem Target.forgetFreqs_phase : t.forgetFreqs.phase = t.phase := rfl
@[simp] theorem Target.forgetFreqs_ctrl : t.forgetFreqs.ctrl = t.ctrl := rfl
@[simp] theorem Target.forgetFreqs_pend : t.forgetFreqs.pend = t.pend := rfl
@[simp] theorem Target.breakPair_phase : t.breakPair.phase = t.phase := by unfold breakPair; split <;> rfl
@[simp] theorem Target.breakPair_ctrl : t.breakPair.ctrl = t.ctrl := by unfold breakPair; split <;> rfl
@[simp] theorem Target.breakPair_pend : t.breakPair.pend = t.pend := by unfold breakPair; split <;> simp_all
end

end Sys2Proof.Machine
end

