-- ==== Sys2Proof/Laws/Ops.lean ====
section
/-! SUPPORT. What each shared operation can do, said once. -/

namespace Sys2Proof.Machine

open Host

/-! ### onNext -/

@[simp] theorem onNext_next (f : State → State) (s : State) : onNext f (.next s) = .next (f s) := rfl
@[simp] theorem onNext_fault (f : State → State) (r : Fault) : onNext f (.fault r) = .fault r := rfl
@[simp] theorem onNext_refused (f : State → State) (r : Refusal) : onNext f (.refused r) = .refused r := rfl

/-- `onNext f o` is a next state exactly when `o` is. -/
theorem onNext_eq_next {f : State → State} {o : Outcome State Fault Refusal} {t : State} :
    onNext f o = .next t ↔ ∃ u, o = .next u ∧ t = f u := by
  cases o <;> simp [onNext, eq_comm]

/-- What follows a next state matters only where the outcome is one. -/
theorem onNext_congr {f g : State → State} {o : Outcome State Fault Refusal} (h : ∀ t, o = .next t → f t = g t) :
    onNext f o = onNext g o := by
  cases o with
  | next t => simp [h t rfl]
  | fault r => rfl
  | refused r => rfl

/-! ### The three shared word meanings -/

/-- A frequency word that runs: `B28` is set, and only the target's frequency registers and latch can change. -/
theorem onFreqWord_cases {sel : Sel} {d : Half} {s t : State} (h : onFreqWord sel d s = .next t) :
    ∃ c, s.target.ctrl = some c ∧ ctrlB28 c = true ∧ t = { s with target := s.target.takeHalf sel d } := by
  unfold onFreqWord at h
  split at h
  · cases h
  · next c hc =>
    split at h
    · next hb => cases h; exact ⟨c, hc, hb, rfl⟩
    · cases h

/-- A control word that runs is not refused by R146. -/
theorem onCtrlWord_cases {w : Word} {s t : State} (h : onCtrlWord w s = .next t) :
    reservedOrUnsupported w = false ∧ t = { s with target := s.target.takeCtrl w } := by
  unfold onCtrlWord at h
  split at h
  · cases h
  · next hw => cases h; exact ⟨by simp [reservedOrUnsupported, hw], rfl⟩

/-- A phase word always runs. -/
theorem onPhaseWord_eq (sel : Sel) (d : PhaseWord) (s : State) :
    onPhaseWord sel d s = .next { s with target := s.target.takePhase sel d } := rfl

/-- Whatever the word, `exec` changes the target image and nothing else. -/
theorem exec_target_only {i : Instr} {s t : State} (h : exec i s = .next t) :
    ∃ T, t = { s with target := T } := by
  cases i with
  | ctrl f => exact ⟨_, (onCtrlWord_cases h).2⟩
  | freq0 d => obtain ⟨_, _, _, rfl⟩ := onFreqWord_cases h; exact ⟨_, rfl⟩
  | freq1 d => obtain ⟨_, _, _, rfl⟩ := onFreqWord_cases h; exact ⟨_, rfl⟩
  | phase0 x d => cases h; exact ⟨_, rfl⟩
  | phase1 x d => cases h; exact ⟨_, rfl⟩

/-- What `exec` does depends on the target image alone. -/
theorem exec_congr {i : Instr} {s s' t : State} (ht : s'.target = s.target) (h : exec i s' = .next t) :
    exec i s = .next { s with target := t.target } := by
  cases i with
  | ctrl f =>
    obtain ⟨hr, rfl⟩ := onCtrlWord_cases (w := 0b00#2 ++ f) h
    have hr' : ctrlRefusal (0b00#2 ++ f) = none := by simpa [reservedOrUnsupported] using hr
    simp only [exec, execCtrl, onCtrlWord, hr', ht]
  | freq0 d =>
    obtain ⟨c, hc, hb, rfl⟩ := onFreqWord_cases h
    rw [ht] at hc
    simp only [exec, execFreq0, onFreqWord, hc, hb, if_true, ht]
  | freq1 d =>
    obtain ⟨c, hc, hb, rfl⟩ := onFreqWord_cases h
    rw [ht] at hc
    simp only [exec, execFreq1, onFreqWord, hc, hb, if_true, ht]
  | phase0 x d => cases h; simp only [exec, execPhase0, onPhaseWord, ht]
  | phase1 x d => cases h; simp only [exec, execPhase1, onPhaseWord, ht]

/-! ### The bus -/

@[simp] theorem serialise_length (w : Word) : (serialise w).length = 16 := by simp [serialise]

/-- The bits a word is sent as are taken in as that word: nothing is lost on the bus. -/
@[simp] theorem deserialise_serialise (w : Word) : deserialise (serialise w) = w := by
  apply BitVec.eq_of_getLsbD_eq
  intro i hi
  simp only [deserialise, serialise, List.range, List.range.loop, List.map, List.foldl]
  interval_cases i <;> simp [BitVec.getMsbD]

/-- `deliver` executes the word the transaction carries. -/
theorem deliver_eq_exec (w : Word) (s : State) : deliver w s = exec (decodeWord w) s := by
  simp [deliver, receive, decodeBits]

/-- What a transaction leaves when it is not refused: the word executed, nothing, or an image of which nothing is
known. -/
theorem transfer_cases {w : Word} {a : Answer} {s t : State} (h : transfer w a s = .next t) :
    exec (decodeWord w) s = .next t ∨ t = s ∧ a = .fail .lost ∨
      t = { s with target := .powerOn } ∧ s.params.corruptOnFailure = true ∧ ∃ c, a = .fail c := by
  cases a with
  | ok => exact .inl (by rw [← deliver_eq_exec]; exact h)
  | fail c =>
    simp only [transfer, failedDelivery] at h
    split at h
    · next hc => cases h; exact .inr (.inr ⟨rfl, hc, c, rfl⟩)
    · cases c with
      | delivered => exact .inl (by rw [← deliver_eq_exec]; exact h)
      | lost => cases h; exact .inr (.inl ⟨rfl, rfl⟩)

/-- A transaction changes the target image and nothing else. -/
theorem transfer_target_only {w : Word} {a : Answer} {s t : State} (h : transfer w a s = .next t) :
    ∃ T, t = { s with target := T } := by
  rcases transfer_cases h with h | ⟨rfl, _⟩ | ⟨rfl, _⟩
  · exact exec_target_only h
  · exact ⟨_, rfl⟩
  · exact ⟨_, rfl⟩

/-! ### Plans -/

/-- `enc_freq` gives words exactly for a valid frequency: the two halves under one tag. -/
theorem encFreq_eq_ok {ref hz : Rat} {s : Sel} {ws : List Word} :
    encFreq ref hz s = .ok ws ↔ freqValid ref hz ∧
      ws = [freqTag s ++ loHalf (freqWordOf ref hz), freqTag s ++ hiHalf (freqWordOf ref hz)] := by
  unfold encFreq
  split
  · next h => exact ⟨fun e => ⟨h, (Except.ok.inj e).symm⟩, fun e => congrArg _ e.2.symm⟩
  · next h => exact ⟨fun e => (nomatch e), fun e => absurd e.1 h⟩

/-- `enc_freq` of a valid frequency. -/
theorem encFreq_of_valid {ref hz : Rat} (s : Sel) (h : freqValid ref hz) :
    encFreq ref hz s = .ok [freqTag s ++ loHalf (freqWordOf ref hz), freqTag s ++ hiHalf (freqWordOf ref hz)] :=
  if_pos h

/-- `enc_freq` of a frequency out of range. -/
theorem encFreq_of_invalid {ref hz : Rat} (s : Sel) (h : ¬ freqValid ref hz) :
    encFreq ref hz s = .error (.invalidParameter .freqOutOfRange hz) := if_neg h

/-- An operation that encodes a frequency emits words only for a valid one. -/
theorem whenEncoded_eq_emit {ref hz : Rat} {sel : Sel} {k : List Word → Plan} {ws : List Word} {after : Option Shadow}
    (h : whenEncoded (encFreq ref hz sel) k = .emit ws after) :
    freqValid ref hz ∧
      k [freqTag sel ++ loHalf (freqWordOf ref hz), freqTag sel ++ hiHalf (freqWordOf ref hz)] = .emit ws after := by
  by_cases hv : freqValid ref hz
  · rw [encFreq_of_valid sel hv] at h; exact ⟨hv, h⟩
  · rw [encFreq_of_invalid sel hv] at h; cases h

/-- An operation refused before `init` emits words only on an initialised block whose shadow is there. -/
theorem whenInitialised_eq_emit {b : Bool} {o : Option Shadow} {k : Shadow → Plan} {ws : List Word}
    {after : Option Shadow} (h : whenInitialised b o k = .emit ws after) :
    ∃ S, b = true ∧ o = some S ∧ k S = .emit ws after := by
  unfold whenInitialised at h
  split at h
  · next S => exact ⟨S, rfl, rfl, h⟩
  · cases h
  · cases h

/-- An initialised block with its shadow runs the operation. -/
@[simp] theorem whenInitialised_true (S : Shadow) (k : Shadow → Plan) : whenInitialised true (some S) k = k S := rfl

/-- A block that is not initialised refuses it, whatever its shadow. -/
@[simp] theorem whenInitialised_false (o : Option Shadow) (k : Shadow → Plan) :
    whenInitialised false o k = .reply .refusedBeforeInit := by cases o <;> rfl

/-- Every operation that emits words emits at least one and at most five. -/
theorem plan_length {op : Operation} {s : State} {ws : List Word} {after : Option Shadow}
    (h : plan op s = .emit ws after) : 1 ≤ ws.length ∧ ws.length ≤ 5 := by
  cases op with
  | encFreq hz sel => cases (whenEncoded_eq_emit h).2
  | encPhase deg sel => cases h
  | encCtrl wave fsel psel rst => cases h
  | write16 w => cases h; simp
  | setFrequency hz =>
    obtain ⟨S, _, _, hS⟩ := whenInitialised_eq_emit h
    cases (whenEncoded_eq_emit hS).2; simp [encCtrl]
  | setPhase deg => obtain ⟨S, _, _, hS⟩ := whenInitialised_eq_emit h; cases hS; simp [encPhase, encCtrl]
  | setWaveform wave => obtain ⟨S, _, _, hS⟩ := whenInitialised_eq_emit h; cases hS; simp [encCtrl]
  | init f0 p0 w0 => cases (whenEncoded_eq_emit h).2; simp [encPhase, encCtrl]

/-- A plan looks only at the parameters, the shadow and whether the block is initialised. -/
theorem plan_congr (op : Operation) {s t : State} (hp : t.params = s.params) (hs : t.shadow = s.shadow)
    (hi : t.initialised = s.initialised) : plan op t = plan op s := by
  cases op <;> simp [plan, hp, hs, hi]

/-! ### initialised -/

@[simp] theorem initialisedAfter_init (f0 p0 : Rat) (w0 : Waveform) (ok was : Bool) :
    initialisedAfter (.init f0 p0 w0) ok was = ok := rfl

/-- Only `init` changes whether the block is initialised. -/
theorem initialisedAfter_of_not_init {op : Operation} {ok was : Bool} (h : ∀ f p w, op ≠ .init f p w) :
    initialisedAfter op ok was = was := by
  cases op with
  | init f p w => exact absurd rfl (h f p w)
  | encFreq _ _ | encPhase _ _ | encCtrl _ _ _ _ | write16 _ | setFrequency _ | setPhase _ | setWaveform _ => rfl

end Sys2Proof.Machine
end

