-- ==== Sys2Proof/Laws/PerInstr.lean ====
section
/-! SUPPORT. The statement family made per instruction (LAWS.json): the tag in the encoded word's high bits is the one
20_memory.md rule R50 gives its register. -/

namespace Sys2Proof.Laws.Tag

/-- Bits 15 to 13 of the encoded word agree with the register's row of R50. -/
def Statement (i : Instr) : Prop :=
  match i with
  | .ctrl _ => (encode i).extractLsb' 14 2 = 0b00#2
  | .freq0 _ => (encode i).extractLsb' 14 2 = 0b01#2
  | .freq1 _ => (encode i).extractLsb' 14 2 = 0b10#2
  | .phase0 _ _ => (encode i).extractLsb' 13 3 = 0b110#3
  | .phase1 _ _ => (encode i).extractLsb' 13 3 = 0b111#3

/-- The bits of the tag stand above the data bits. -/
theorem extract_tag {n m : Nat} (t : BitVec n) (d : BitVec m) : (t ++ d).extractLsb' m n = t := by
  apply BitVec.eq_of_getLsbD_eq
  intro i hi
  simp [BitVec.getLsbD_append, hi]

theorem ctrl (f : BitVec 14) : Statement (.ctrl f) := extract_tag 0b00#2 f
theorem freq0 (d : Half) : Statement (.freq0 d) := extract_tag 0b01#2 d
theorem freq1 (d : Half) : Statement (.freq1 d) := extract_tag 0b10#2 d

/-- The three tag bits of a phase word stand above bit 12 and the data. -/
theorem extract_phase_tag (t : BitVec 3) (b : BitVec 1) (d : BitVec 12) : (t ++ b ++ d).extractLsb' 13 3 = t := by
  apply BitVec.eq_of_getLsbD_eq
  intro i hi
  have h : ¬ 13 + i < 12 := by omega
  have h' : ¬ 13 + i - 12 < 1 := by omega
  have h'' : 13 + i - 12 - 1 = i := by omega
  rw [BitVec.getLsbD_extractLsb', BitVec.getLsbD_append, BitVec.getLsbD_append]
  simp only [h, h', h'', hi, if_false, decide_true, Bool.true_and]

theorem phase0 (x : Bool) (d : PhaseWord) : Statement (.phase0 x d) := extract_phase_tag 0b110#3 _ d
theorem phase1 (x : Bool) (d : PhaseWord) : Statement (.phase1 x d) := extract_phase_tag 0b111#3 _ d

end Sys2Proof.Laws.Tag
end

