-- ==== Sys2Proof/Laws/Target.lean ====
section
/-! SUPPORT. The target's three word operations, case by case of the latch (40_frequency.md rule R109, 41_phase.md rule
R125, 42_control.md rule R145). -/

namespace Sys2Proof.Machine

variable {t : Target} (s : Sel) (d : Half) (p : PhaseWord) (w : Word)

/-! ### takeHalf -/

@[simp] theorem Target.takeHalf_phase : (t.takeHalf s d).phase = t.phase := by
  unfold takeHalf
  split
  · rfl
  · split <;> rfl
  · rfl
@[simp] theorem Target.takeHalf_ctrl : (t.takeHalf s d).ctrl = t.ctrl := by
  unfold takeHalf
  split
  · rfl
  · split <;> rfl
  · rfl

/-- The first half waits. -/
theorem Target.takeHalf_first (h : t.pend = .none) : t.takeHalf s d = { t with pend := .half s d } := by
  simp [takeHalf, h]

/-- The second half of the same register latches 28 bits. -/
theorem Target.takeHalf_second {lo : Half} (h : t.pend = .half s lo) :
    t.takeHalf s d = { t with freq := t.freq.set s (some (joinHalves d lo)), pend := .none } := by
  simp [takeHalf, h, setFreq]

/-- A half for the other register loses both registers. -/
theorem Target.takeHalf_mismatch {s' : Sel} {lo : Half} (h : t.pend = .half s' lo) (hne : s' ≠ s) :
    t.takeHalf s d = { t with freq := ⟨none, none⟩, pend := .unknown } := by
  simp [takeHalf, h, hne, forgetFreqs]

/-- A half under an unknown latch loses both registers. -/
theorem Target.takeHalf_unknown (h : t.pend = .unknown) :
    t.takeHalf s d = { t with freq := ⟨none, none⟩, pend := .unknown } := by
  simp [takeHalf, h, forgetFreqs]

/-! ### breakPair -/

theorem Target.breakPair_of_none (h : t.pend = .none) : t.breakPair = t := by simp [breakPair, h]
theorem Target.breakPair_of_half {s' : Sel} {lo : Half} (h : t.pend = .half s' lo) :
    t.breakPair = { t with freq := t.freq.set s' none } := by simp [breakPair, h, setFreq]
theorem Target.breakPair_of_unknown (h : t.pend = .unknown) : t.breakPair = { t with freq := ⟨none, none⟩ } := by
  simp [breakPair, h, forgetFreqs]

/-! ### takeCtrl and takePhase -/

@[simp] theorem Target.takeCtrl_ctrl : (t.takeCtrl w).ctrl = some w := rfl
@[simp] theorem Target.takeCtrl_pend : (t.takeCtrl w).pend = .none := rfl
@[simp] theorem Target.takeCtrl_phase : (t.takeCtrl w).phase = t.phase := by simp [takeCtrl]
@[simp] theorem Target.takeCtrl_freq : (t.takeCtrl w).freq = t.breakPair.freq := rfl
@[simp] theorem Target.takePhase_ctrl : (t.takePhase s p).ctrl = t.ctrl := by simp [takePhase]
@[simp] theorem Target.takePhase_phase : (t.takePhase s p).phase = t.phase.set s (some p) := by simp [takePhase]
@[simp] theorem Target.takePhase_pend : (t.takePhase s p).pend = t.pend.afterPhase := rfl
@[simp] theorem Target.takePhase_freq : (t.takePhase s p).freq = t.breakPair.freq := by
  unfold takePhase breakPair; cases h : t.pend <;> simp [h]

/-- With no half pending a control word is just the new control register. -/
theorem Target.takeCtrl_of_none (h : t.pend = .none) : t.takeCtrl w = { t with ctrl := some w } := by
  cases t; simp_all [takeCtrl, breakPair]

/-- With no half pending a phase word is just the new phase register. -/
theorem Target.takePhase_of_none (h : t.pend = .none) :
    t.takePhase s p = { t with phase := t.phase.set s (some p) } := by
  cases t; simp_all [takePhase, breakPair, Pend.afterPhase, setPhase]

/-- No meaning `f` of a PHASE word gives what R125's pseudocode gives in its cases `half(s', _)` and `⊥` and is idempotent
as 20_memory.md R56 says: after one copy inside a pair the other frequency register has its value, after two it is
unknown (log 9). -/
theorem phase_pseudocode_not_idempotent {f : Target → Target}
    (half : ∀ t s' lo, t.pend = .half s' lo →
      f t = { t with phase := t.phase.set s (some p), freq := t.freq.set s' none, pend := .unknown })
    (unknown : ∀ t, t.pend = .unknown → f t = { t with phase := t.phase.set s (some p), freq := ⟨none, none⟩ }) :
    ∃ t, f (f t) ≠ f t := by
  let t : Target := { freq := ⟨none, some 0⟩, phase := ⟨none, none⟩, ctrl := none, pend := .half false 0 }
  refine ⟨t, ?_⟩
  rw [half t false 0 rfl, unknown _ rfl]
  simp [t, Slots.set]

end Sys2Proof.Machine
end

