-- ==== Sys2Proof/Laws/Codec.lean ====
section
/-! SUPPORT. What the words the block builds are to the decoder and the target: the fields of `enc_ctrl`'s word, the
instruction each word decodes to, and its delivery. -/

namespace Sys2Proof.Machine

section
variable (w : Waveform) (f p r : Bool)

/-! ### The fields of `enc_ctrl`'s word (42_control.md R141) -/

@[simp] theorem ctrlB28_ctrlWord : ctrlB28 (ctrlWord w f p r) = true := by
  cases w <;> cases f <;> cases p <;> cases r <;> rfl
@[simp] theorem ctrlFselect_ctrlWord : ctrlFselect (ctrlWord w f p r) = f := by
  cases w <;> cases f <;> cases p <;> cases r <;> rfl
@[simp] theorem ctrlPselect_ctrlWord : ctrlPselect (ctrlWord w f p r) = p := by
  cases w <;> cases f <;> cases p <;> cases r <;> rfl
@[simp] theorem ctrlReset_ctrlWord : ctrlReset (ctrlWord w f p r) = r := by
  cases w <;> cases f <;> cases p <;> cases r <;> rfl
@[simp] theorem ctrlRefusal_ctrlWord : ctrlRefusal (ctrlWord w f p r) = none := by
  cases w <;> cases f <;> cases p <;> cases r <;> rfl

/-- `enc_ctrl`'s word decodes to CTRL with its own 14 field bits. -/
theorem decodeWord_ctrlWord : decodeWord (ctrlWord w f p r) = .ctrl ((ctrlWord w f p r).extractLsb' 0 14) := by
  cases w <;> cases f <;> cases p <;> cases r <;> rfl

/-- The tag of `enc_ctrl`'s word is 00. -/
theorem ctrlWord_tagged : 0b00#2 ++ (ctrlWord w f p r).extractLsb' 0 14 = ctrlWord w f p r := by
  cases w <;> cases f <;> cases p <;> cases r <;> rfl

/-- The target accepts `enc_ctrl`'s word. -/
theorem deliver_ctrlWord (s : State) :
    deliver (ctrlWord w f p r) s = .next { s with target := s.target.takeCtrl (ctrlWord w f p r) } := by
  rw [deliver_eq_exec, decodeWord_ctrlWord]
  simp only [exec, execCtrl, onCtrlWord, ctrlWord_tagged, ctrlRefusal_ctrlWord]
end

/-! ### F and P words -/

/-- The data bits stand below the tag. -/
theorem extract_data {n m : Nat} (t : BitVec n) (d : BitVec m) : (t ++ d).extractLsb' 0 m = d := by
  apply BitVec.eq_of_getLsbD_eq
  intro i hi
  rw [BitVec.getLsbD_extractLsb', BitVec.getLsbD_append]
  simp [hi]

/-- An F word decodes to its register's instruction with its 14 bits (30_encoding.md R72). -/
theorem decodeWord_freq (s : Sel) (d : Half) :
    decodeWord (freqTag s ++ d) = if s then .freq1 d else .freq0 d := by
  have tag := Laws.Tag.extract_tag (freqTag s) d
  have data := extract_data (freqTag s) d
  unfold decodeWord
  rw [tag, data]
  cases s <;> rfl

/-- The two high tag bits of a phase word are `11`. -/
theorem extract_phase_top (s : Sel) (b : BitVec 1) (d : PhaseWord) :
    (phaseTag s ++ b ++ d).extractLsb' 14 2 = 0b11#2 := by
  have h : (phaseTag s ++ b ++ d).extractLsb' 14 2 = (phaseTag s).extractLsb' 1 2 := by
    apply BitVec.eq_of_getLsbD_eq
    intro i hi
    have h1 : ¬ 14 + i < 12 := by omega
    have h2 : ¬ 14 + i - 12 < 1 := by omega
    have h3 : 14 + i - 12 - 1 = 1 + i := by omega
    rw [BitVec.getLsbD_extractLsb', BitVec.getLsbD_append, BitVec.getLsbD_append, BitVec.getLsbD_extractLsb']
    simp only [h1, h2, h3, if_false]
  rw [h]
  cases s <;> rfl

/-- A phase word's bit 12 is the bit between the tag and the data. -/
theorem phase_bit12 (t : BitVec 3) (x : Bool) (d : PhaseWord) : (t ++ BitVec.ofBool x ++ d).getLsbD 12 = x := by
  rw [BitVec.getLsbD_append, BitVec.getLsbD_append]
  simp

/-- A P word decodes to its register's instruction with bit 12 and its 12 bits (30_encoding.md R73). -/
theorem decodeWord_phase (s : Sel) (x : Bool) (d : PhaseWord) :
    decodeWord (phaseTag s ++ BitVec.ofBool x ++ d) = if s then .phase1 x d else .phase0 x d := by
  have top := extract_phase_top s (BitVec.ofBool x) d
  have tag := Laws.Tag.extract_phase_tag (phaseTag s) (BitVec.ofBool x) d
  have data := extract_data (phaseTag s ++ BitVec.ofBool x) d
  have bit := phase_bit12 (phaseTag s) x d
  unfold decodeWord
  rw [top, tag, data, bit]
  cases s <;> rfl

/-- An F word is the target's shared frequency meaning. -/
theorem deliver_freq (sel : Sel) (d : Half) (s : State) : deliver (freqTag sel ++ d) s = onFreqWord sel d s := by
  rw [deliver_eq_exec, decodeWord_freq]
  cases sel <;> rfl

/-- A P word is the target's shared phase meaning. -/
theorem deliver_phase (sel : Sel) (d : PhaseWord) (s : State) :
    deliver (phaseTag sel ++ 0#1 ++ d) s = .next { s with target := s.target.takePhase sel d } := by
  rw [deliver_eq_exec, show (0#1 : BitVec 1) = BitVec.ofBool false from rfl, decodeWord_phase]
  cases sel <;> rfl

/-- A frequency word under a control word of the block runs. -/
theorem deliver_freq_of_ctrlWord {s : State} {w : Waveform} {f p r : Bool} (sel : Sel) (d : Half)
    (h : s.target.ctrl = some (ctrlWord w f p r)) :
    deliver (freqTag sel ++ d) s = .next { s with target := s.target.takeHalf sel d } := by
  rw [deliver_freq]
  simp [onFreqWord, h]

end Sys2Proof.Machine
end

