-- ==== Sys2Proof/Laws/Step.lean ====
section
/-! SUPPORT. Everything one step can do, said once. -/

namespace Sys2Proof.Machine

open Host

/-- `onNext` of a word's transaction, inverted: the word's effect on the target, then the block's own progress. -/
theorem sendWord_cases {op : Operation} {w : Word} {rest : List Word} {after : Option Shadow} {s t : State}
    (h : sendWord op w rest after s = .next t) :
    ∃ T, transfer w (takeAnswer s).1 (record (.toTarget w (takeAnswer s).1) (takeAnswer s).2)
        = .next { record (.toTarget w (takeAnswer s).1) (takeAnswer s).2 with target := T } ∧
      t = afterAnswer op (takeAnswer s).1 rest after
        { record (.toTarget w (takeAnswer s).1) (takeAnswer s).2 with target := T } := by
  obtain ⟨u, hu, rfl⟩ := onNext_eq_next.mp h
  obtain ⟨T, rfl⟩ := transfer_target_only hu
  exact ⟨T, hu, rfl⟩

/-- The step of an operation: it answers, it starts over from an index past its end, or it sends its next word. -/
theorem stepOperation_cases {op : Operation} {s t : State} (h : stepOperation op s = .next t) :
    (∃ r, plan op s = .reply r ∧ t = finish r s) ∨
    (∃ ws after, plan op s = .emit ws after ∧ ws.length ≤ s.index ∧ t = { s with index := 0 }) ∨
    (∃ ws after w rest, plan op s = .emit ws after ∧ ws.drop s.index = w :: rest ∧
      sendWord op w rest after s = .next t) := by
  unfold stepOperation at h
  split at h
  · next r hr => cases h; exact .inl ⟨r, hr, rfl⟩
  · next ws after hp =>
    split at h
    · next hd => cases h; exact .inr (.inl ⟨ws, after, hp, by simpa using hd, rfl⟩)
    · next w rest hd => exact .inr (.inr ⟨ws, after, w, rest, hp, hd, h⟩)

/-- One step: another user's transaction, a power cycle, nothing to do, or the head operation's step. -/
theorem step_cases {s t : State} (h : step s = .next t) :
    (∃ bits rest, s.env = .foreign bits :: rest ∧ t = foreignTransaction bits { s with env := rest }) ∨
    (∃ rest, s.env = .powerCycle :: rest ∧ t = powerCycle { s with env := rest }) ∨
    (s.queue = [] ∧ t = s) ∨
    (∃ op rest, s.queue = op :: rest ∧ (∀ bits l, s.env ≠ .foreign bits :: l) ∧ (∀ l, s.env ≠ .powerCycle :: l) ∧
      stepOperation op s = .next t) := by
  unfold step at h
  split at h
  · next bits rest he => cases h; exact .inl ⟨bits, rest, he, rfl⟩
  · next rest he => cases h; exact .inr (.inl ⟨rest, he, rfl⟩)
  · next h1 h2 =>
    split at h
    · next hq => cases h; exact .inr (.inr (.inl ⟨hq, rfl⟩))
    · next op rest hq =>
      exact .inr (.inr (.inr ⟨op, rest, hq, fun b l e => h1 b l e, fun l e => h2 l e, h⟩))

/-- With an answer or nothing first in the environment's list, the step is the head operation's. -/
theorem step_of_queue {s : State} {op : Operation} {rest : List Operation} (hq : s.queue = op :: rest)
    (he : s.env = [] ∨ ∃ a l, s.env = .answer a :: l) : step s = stepOperation op s := by
  rcases he with he | ⟨a, l, he⟩ <;> simp [step, he, hq]

/-- The step of a state that `withFetchWord` made is the execution of that word, and `write16` returns `ok`. -/
theorem step_withFetchWord (s : State) (nbits w : Nat) :
    step (s.withFetchWord nbits w) =
      onNext (complete s.shadow s.initialised)
        (exec (decodeWord (BitVec.ofNat 16 (w % 2 ^ nbits)))
          { s with
            queue := .write16 (BitVec.ofNat 16 (w % 2 ^ nbits)) :: s.queue
            index := 0
            bus := s.bus ++ [.toTarget (BitVec.ofNat 16 (w % 2 ^ nbits)) .ok] }) := by
  simp only [State.withFetchWord, step, stepOperation, plan, List.drop, sendWord, takeAnswer, record, transfer,
    deliver_eq_exec]
  exact onNext_congr fun t ht => by
    obtain ⟨T, rfl⟩ := exec_target_only ht
    rfl

end Sys2Proof.Machine
end

