-- ==== Sys2Proof/Laws/Run.lean ====
section
/-! SUPPORT. Running the machine word by word: one lemma per answer of the transport, and `run` unrolled by steps. -/

namespace Sys2Proof.Machine

open Host

/-- A run of `k + 1` steps is a step and a run of `k`. -/
theorem run_succ {k : Nat} {s t : State} (h : step s = .next t) :
    Core.run Sys2Proof.core (k + 1) s = Core.run Sys2Proof.core k t := by
  have h' : Sys2Proof.core.step s = .next t := h
  simp only [Core.run, h']

@[simp] theorem run_zero (s : State) : Core.run Sys2Proof.core 0 s = .next s := rfl

variable {s : State} {op : Operation} {ops : List Operation} {ws rest : List Word} {after : Option Shadow} {w : Word}
  {env : List EnvEvent} {T : Target}

/-- The state of a transaction that has gone out and been answered, with its effect on the target. -/
abbrev sentState (s : State) (env : List EnvEvent) (w : Word) (a : Answer) (T : Target) : State :=
  { s with env := env, bus := s.bus ++ [.toTarget w a], target := T }

/-- A word answered `ok`: its effect on the target, and the block goes on. -/
theorem step_ok (hq : s.queue = op :: ops) (hp : plan op s = .emit ws after) (hd : ws.drop s.index = w :: rest)
    (he : s.env = .answer .ok :: env)
    (hx : ∀ u : State, u.target = s.target → deliver w u = .next { u with target := T }) :
    step s = .next (advance op rest after (sentState s env w .ok T)) := by
  rw [step_of_queue hq (.inr ⟨_, _, he⟩)]
  simp only [stepOperation, hp, hd, sendWord, takeAnswer_of_env he, transfer]
  rw [hx (record (.toTarget w .ok) { s with env := env }) rfl]
  rfl

/-- A word answered `fail` and lost: the target is as it was, and the operation fails. -/
theorem step_fail_lost (hq : s.queue = op :: ops) (hp : plan op s = .emit ws after)
    (hd : ws.drop s.index = w :: rest) (he : s.env = .answer (.fail .lost) :: env)
    (hc : s.params.corruptOnFailure = false) :
    step s = .next (failWord (initialisedAfter op false s.initialised) (sentState s env w (.fail .lost) s.target)) := by
  rw [step_of_queue hq (.inr ⟨_, _, he⟩)]
  simp [stepOperation, hp, hd, sendWord, takeAnswer_of_env he, transfer, failedDelivery, hc, afterAnswer, record]

/-- A word answered `fail` and delivered: its effect on the target, and the operation fails. -/
theorem step_fail_delivered (hq : s.queue = op :: ops) (hp : plan op s = .emit ws after)
    (hd : ws.drop s.index = w :: rest) (he : s.env = .answer (.fail .delivered) :: env)
    (hc : s.params.corruptOnFailure = false)
    (hx : ∀ u : State, u.target = s.target → deliver w u = .next { u with target := T }) :
    step s = .next (failWord (initialisedAfter op false s.initialised) (sentState s env w (.fail .delivered) T)) := by
  rw [step_of_queue hq (.inr ⟨_, _, he⟩)]
  simp only [stepOperation, hp, hd, sendWord, takeAnswer_of_env he, transfer, failedDelivery, record_params, hc,
    Bool.false_eq_true, if_false]
  rw [hx (record (.toTarget w (.fail .delivered)) { s with env := env }) rfl]
  rfl

/-- A word answered `fail` where failures lose the target image. -/
theorem step_fail_corrupt {c : Delivery} (hq : s.queue = op :: ops) (hp : plan op s = .emit ws after)
    (hd : ws.drop s.index = w :: rest) (he : s.env = .answer (.fail c) :: env)
    (hc : s.params.corruptOnFailure = true) :
    step s = .next (failWord (initialisedAfter op false s.initialised) (sentState s env w (.fail c) .powerOn)) := by
  rw [step_of_queue hq (.inr ⟨_, _, he⟩)]
  simp [stepOperation, hp, hd, sendWord, takeAnswer_of_env he, transfer, failedDelivery, hc, afterAnswer, record]

/-! ### The effect of the block's own words, in the form `step_ok` takes -/

theorem effect_ctrlWord (w : Waveform) (f p r : Bool) (u : State) (T : Target) (h : u.target = T) :
    deliver (ctrlWord w f p r) u = .next { u with target := T.takeCtrl (ctrlWord w f p r) } := by
  rw [deliver_ctrlWord, h]

theorem effect_phase (sel : Sel) (d : PhaseWord) (u : State) (T : Target) (h : u.target = T) :
    deliver (phaseTag sel ++ 0#1 ++ d) u = .next { u with target := T.takePhase sel d } := by
  rw [deliver_phase, h]

theorem effect_freq {w : Waveform} {f p r : Bool} (sel : Sel) (d : Half) (u : State) (T : Target)
    (hc : T.ctrl = some (ctrlWord w f p r)) (h : u.target = T) :
    deliver (freqTag sel ++ d) u = .next { u with target := T.takeHalf sel d } := by
  rw [deliver_freq_of_ctrlWord sel d (by rw [h]; exact hc), h]

/-! ### The plans of accepted operations -/

theorem plan_setFrequency {S : Shadow} {hz : Rat} (hI : s.initialised = true) (hS : s.shadow = some S)
    (hv : freqValid s.params.refClkHz hz) :
    plan (.setFrequency hz) s = .emit
      [freqTag (!S.fsel) ++ loHalf (freqWordOf s.params.refClkHz hz),
        freqTag (!S.fsel) ++ hiHalf (freqWordOf s.params.refClkHz hz), ctrlWord S.wave (!S.fsel) S.psel S.rst]
      (some { S with fsel := !S.fsel }) := by
  simp [plan, hI, hS, planSetFrequency, encFreq_of_valid _ hv, whenEncoded, encCtrl]

theorem plan_setPhase {S : Shadow} {deg : Rat} (hI : s.initialised = true) (hS : s.shadow = some S) :
    plan (.setPhase deg) s = .emit
      [phaseTag (!S.psel) ++ 0#1 ++ phaseWordOf deg, ctrlWord S.wave S.fsel (!S.psel) S.rst]
      (some { S with psel := !S.psel }) := by
  simp [plan, hI, hS, planSetPhase, encPhase, encCtrl]

theorem plan_setWaveform {S : Shadow} {wave : Waveform} (hI : s.initialised = true) (hS : s.shadow = some S) :
    plan (.setWaveform wave) s = .emit [ctrlWord wave S.fsel S.psel S.rst] (some { S with wave := wave }) := by
  simp [plan, hI, hS, planSetWaveform, encCtrl]

theorem plan_init {f0 p0 : Rat} {w0 : Waveform} (hv : freqValid s.params.refClkHz f0) :
    plan (.init f0 p0 w0) s = .emit
      [ctrlWord w0 false false true, freqTag false ++ loHalf (freqWordOf s.params.refClkHz f0),
        freqTag false ++ hiHalf (freqWordOf s.params.refClkHz f0), phaseTag false ++ 0#1 ++ phaseWordOf p0,
        ctrlWord w0 false false false]
      (some ⟨false, false, w0, false⟩) := by
  simp [plan, planInit, encFreq_of_valid _ hv, whenEncoded, encCtrl, encPhase]

end Sys2Proof.Machine
end

