-- ==== Sys2Proof/Tests/Slice0.lean ====
section
/-! SUPPORT. Tests with results from spec/95_test_vectors.md, the smoke test of WellFormed, and for each statement with
hypotheses a state and operands that meet them. -/

namespace Sys2Proof.Tests

open Sys2Proof Sys2Proof.Machine

/-! ### WellFormed refuses an ill-formed term of each check (30_encoding.md R79) -/

theorem test_reserved_bit_is_ill_formed :
    (Instr.ctrl 0b10000000000001#14).reservedBitsClear = false ∧ (Instr.ctrl 0b10000000000001#14).wellFormed = false := by
  decide
theorem test_opbiten_with_mode_is_ill_formed :
    (Instr.ctrl 0b10000000100010#14).outputModePermitted = false ∧
    (Instr.ctrl 0b10000000100010#14).wellFormed = false := by decide
theorem test_ctrl_word_is_well_formed : (Instr.ctrl 0b10000100000000#14).wellFormed = true := by decide

/-! ### Decoding: words written out from the formats R72 to R74 -/

theorem test_decode_ctrl : decodeWord 0b00_10000100000000#16 = .ctrl 0b10000100000000#14 := by decide
theorem test_decode_freq0 : decodeWord 0b01_01000011000111#16 = .freq0 0b01000011000111#14 := by decide
theorem test_decode_freq1 : decodeWord 0b10_00000000000001#16 = .freq1 0b00000000000001#14 := by decide
theorem test_decode_phase0 : decodeWord 0b110_1_010000000000#16 = .phase0 true 0b010000000000#12 := by decide
theorem test_decode_phase1 : decodeWord 0b111_0_111111110101#16 = .phase1 false 0b111111110101#12 := by decide
theorem test_table_word : decodeTableWord 16 0xE000 = some (.phase1 false 0#12) ∧ decodeTableWord 8 0x40 = none := by
  decide
theorem test_serialise :
    serialise 0x50C7#16 = [false, true, false, true, false, false, false, false, true, true, false, false, false, true,
      true, true] := by decide

/-! ### The codec: 95_test_vectors.md §2.1 to §2.3 -/

theorem test_encFreq_400 : encFreq 25000000 400 false = .ok [0x50C7#16, 0x4000#16] := by decide +kernel
theorem test_encFreq_tie_carries :
    encFreq 25000000 (12799609375 / 8388608) false = .ok [0x4000#16, 0x4001#16] := by decide +kernel
theorem test_encFreq_upper_bound : encFreq 25000000 12500000 true = .ok [0x8000#16, 0xA000#16] := by decide +kernel
theorem test_encFreq_above :
    encFreq 25000000 (12500000001 / 1000) false =
      .error (.invalidParameter .freqOutOfRange (12500000001 / 1000)) := by decide +kernel
theorem test_encPhase_wraps_after_rounding : encPhase (35996 / 100) true = [0xE000#16] := by decide +kernel
theorem test_encPhase_negative_tie : encPhase (-45 / 1024) false = [0xC000#16] := by decide +kernel
theorem test_encPhase_negative : encPhase (-90) false = [0xCC00#16] := by decide +kernel
theorem test_encCtrl_square : encCtrl .square true false true = [0x2928#16] := by decide
theorem test_encCtrl_triangle : encCtrl .triangle false true false = [0x2402#16] := by decide
theorem test_written_freq_hi : (Written.freqHi true 0x0001#14).assemble = 0x8001#16 := by decide

/-! ### The words at the target: 95_test_vectors.md §2.4 -/

/-- The clock of the spec's vectors; failures do not corrupt. -/
def vectorParams : Params := { refClkHz := 25000000, corruptOnFailure := false }

/-- Power-on with this control register and latch. -/
def targetWith (c : Option Word) (p : Pend) : State :=
  { State.powerOn vectorParams with target := ⟨⟨none, none⟩, ⟨none, none⟩, c, p⟩ }

/-- The target a word leaves, if it is not refused. -/
def targetAfter (w : Word) (s : State) : Option Target :=
  match exec (decodeWord w) s with
  | .next t => some t.target
  | .fault _ => none
  | .refused _ => none

theorem test_ctrl_clears_latch :
    targetAfter 0x2000#16 (targetWith none .unknown) = some ⟨⟨none, none⟩, ⟨none, none⟩, some 0x2000#16, .none⟩ := by
  decide
theorem test_ctrl_refusals :
    [0x2001#16, 0x2200#16, 0x0000#16, 0x3000#16, 0x2080#16, 0x2040#16, 0x2022#16, 0x2020#16].map ctrlRefusal =
      [some .ctrlReservedBit, some .ctrlReservedBit, some .ctrlB28Clear, some .ctrlHlbSet, some .ctrlSleep,
        some .ctrlSleep, some .ctrlOpbitenMode, some .ctrlHalfSquare] := by decide
theorem test_freq0_pairs_with_itself :
    targetAfter 0x4005#16 (targetWith (some 0x2000#16) (.half false 0x0005#14)) =
      some ⟨⟨some 0x0014005#28, none⟩, ⟨none, none⟩, some 0x2000#16, .none⟩ := by decide
theorem test_freq0_before_ctrl : targetAfter 0x4000#16 (targetWith none .unknown) = none := by decide
theorem test_freq1_mismatch :
    targetAfter 0x8002#16 (targetWith (some 0x2000#16) (.half false 0x0001#14)) =
      some ⟨⟨none, none⟩, ⟨none, none⟩, some 0x2000#16, .unknown⟩ := by decide
theorem test_phase0_inside_pair :
    targetAfter 0xC123#16 (targetWith (some 0x2000#16) (.half false 0x0005#14)) =
      some ⟨⟨none, none⟩, ⟨some 0x123#12, none⟩, some 0x2000#16, .unknown⟩ := by decide
theorem test_phase1_lands :
    targetAfter 0xE400#16 (targetWith (some 0x2000#16) .none) =
      some ⟨⟨none, none⟩, ⟨none, some 0x400#12⟩, some 0x2000#16, .none⟩ := by decide

/-! ### States for the hypotheses -/

/-- The shadow after `init 1000, 0, sine` (95_test_vectors.md P2). -/
def shadow0 : Shadow := { fsel := false, psel := false, wave := .sine, rst := false }

/-- The state after `init 1000, 0, sine`, with these calls and events to come. -/
def afterInit (q : List Operation) (env : List EnvEvent) : State :=
  { State.powerOn vectorParams with
    shadow := some shadow0
    initialised := true
    target := ⟨⟨some 0x29F1#28, none⟩, ⟨some 0#12, none⟩, some 0x2000#16, .none⟩
    queue := q
    env := env }

/-- The same, where a failure loses the target image. -/
def corrupting (q : List Operation) (env : List EnvEvent) : State :=
  { afterInit q env with params := { vectorParams with corruptOnFailure := true } }

theorem witness_Agrees (q : List Operation) (env : List EnvEvent) : Agrees (afterInit q env) shadow0 :=
  ⟨rfl, rfl, by show some 0x2000#16 = _; decide, rfl, rfl, rfl⟩

theorem test_set_frequency_first_word :
    (match step (afterInit [.setFrequency 2000] [.answer .ok]) with
      | .next t => some (t.bus, t.target.pend, t.index)
      | .fault _ => none
      | .refused _ => none) = some ([.toTarget 0x93E3#16 .ok], .half true 0x13E3#14, 1) := by decide +kernel

/-! ### Witnesses: a state and operands meeting the hypotheses of each statement that has some -/

theorem witness_OddTransferRefused : ([true] : List Bool).length ≠ 16 := by decide
theorem witness_valid_bounds :
    (0 : Rat) < 25000000 ∧ freqValid 25000000 0 ∧ freqValid 25000000 12500000 ∧ (0 : Rat) ≤ 12500000 ∧
      (12500000 : Rat) ≤ 25000000 / 2 := by decide +kernel
theorem witness_EncFreqGivesTaggedHalves_rejects :
    (0 : Rat) < 25000000 ∧ (-1 / 1000 : Rat) < 0 ∧ (25000000 : Rat) / 2 < 12500000001 / 1000 := by decide +kernel
theorem witness_FrequencyWordWithinRange : (0 : Rat) < 25000000 ∧ freqValid 25000000 12500000 := by decide +kernel
theorem witness_FrequencyWithinHalfStep : (0 : Rat) < 25000000 ∧ freqValid 25000000 400 := by decide +kernel
theorem witness_CtrlWordAtTarget :
    reservedOrUnsupported (0b00#2 ++ 0b10000100000000#14) = false ∧
    reservedOrUnsupported (0b00#2 ++ 0b10000000000001#14) = true := by decide
theorem witness_FreqWordAtTarget :
    (targetWith none .unknown).target.ctrl = none ∧
    (targetWith (some 0x0000#16) .none).target.ctrl = some 0x0000#16 ∧ (0x0000#16).getLsbD 13 = false ∧
    (targetWith (some 0x2000#16) .none).target.ctrl = some 0x2000#16 ∧ (0x2000#16).getLsbD 13 = true ∧
    (targetWith (some 0x2000#16) .none).target.pend = .none ∧
    (targetWith (some 0x2000#16) (.half true 1#14)).target.pend = .half true 1#14 ∧
    (targetWith (some 0x2000#16) .unknown).target.pend = .unknown := by decide
theorem witness_RepeatedWords :
    (targetAfter 0x2000#16 (targetWith none .unknown)).isSome = true ∧
    (targetAfter 0xC123#16 (targetWith none .unknown)).isSome = true ∧
    (targetAfter 0xC123#16 (targetWith (some 0x2000#16) (.half false 5#14))).isSome = true ∧
    (targetAfter 0x4005#16 (targetWith (some 0x2000#16) .none)).isSome = true ∧
    (targetAfter 0x4005#16 (targetWith (some 0x2000#16) (.half false 5#14))).isSome = true := by decide
theorem witness_WordFrames :
    (targetAfter 0x2800#16 (afterInit [] [])).isSome = true ∧ (targetAfter 0x4001#16 (afterInit [] [])).isSome = true ∧
    (targetAfter 0x8001#16 (afterInit [] [])).isSome = true ∧ (targetAfter 0xC001#16 (afterInit [] [])).isSome = true ∧
    (targetAfter 0xE001#16 (afterInit [] [])).isSome = true := by decide
theorem witness_CompletedPairDrivesActiveOutput :
    (0x2000#16).getLsbD 13 = true ∧ (0x2000#16).getLsbD 11 = false ∧ (0x2000#16).getLsbD 8 = false ∧
    (afterInit [] []).target.ctrl = some 0x2000#16 ∧
    { (afterInit [] []).target with pend := .half false 1#14 }.pend = .half false 1#14 ∧
    (afterInit [] []).target.phase.get ((0x2000#16).getLsbD 10) = some 0#12 ∧ waveOf 0x2000#16 = some .sine := by decide
theorem witness_CompletedPair_inactive : (0x2000#16).getLsbD 11 ≠ true := by decide
theorem witness_ResetWordHoldsOutput :
    reservedOrUnsupported (0b00#2 ++ 0b10000100000000#14) = false ∧ (0b10000100000000#14).getLsbD 8 = true ∧
    (afterInit [] []).target.pend = .none := by decide
theorem witness_StepRunsDecodedWord :
    (afterInit [.write16 0xC400#16] [.answer .ok]).queue = .write16 0xC400#16 :: [] ∧
    plan (.write16 0xC400#16) (afterInit [.write16 0xC400#16] [.answer .ok]) = .emit [0xC400#16] (some shadow0) ∧
    ([0xC400#16] : List Word).drop 0 = 0xC400#16 :: [] ∧
    (afterInit [.write16 0xC400#16] [.answer .ok]).env = .answer .ok :: [] ∧
    decodeBits (serialise 0xC400#16) = .ok (.phase0 false 0x400#12) := ⟨rfl, rfl, rfl, rfl, rfl⟩
theorem witness_FailedWordRaisesTransportFailure (c : Delivery) :
    let s := afterInit [.write16 0xC400#16] [.answer (.fail c)]
    let u := corrupting [.write16 0xC400#16] [.answer (.fail c)]
    s.queue = [.write16 0xC400#16] ∧ plan (.write16 0xC400#16) s = .emit [0xC400#16] (some shadow0) ∧
    s.env = [.answer (.fail c)] ∧ s.params.corruptOnFailure = false ∧ u.params.corruptOnFailure = true ∧
    plan (.write16 0xC400#16) u = .emit [0xC400#16] (some shadow0) ∧ u.queue = s.queue ∧ u.env = s.env ∧
    (∀ v : State, ∃ T, exec (decodeWord 0xC400#16) v = .next { v with target := T }) :=
  ⟨rfl, rfl, rfl, rfl, rfl, rfl, rfl, rfl, fun _ => ⟨_, rfl⟩⟩
theorem witness_FailedWord_refused (v : State) (h : v.target.ctrl = none) :
    exec (decodeWord 0x4000#16) v = .refused .freqBeforeCtrl := by
  rw [show decodeWord 0x4000#16 = .freq0 0#14 from by decide]
  simp [exec, execFreq0, onFreqWord, h]
theorem witness_AnswerBeyondListIsFree :
    (afterInit [.write16 0xC400#16] []).queue = [.write16 0xC400#16] ∧
    plan (.write16 0xC400#16) (afterInit [.write16 0xC400#16] []) = .emit [0xC400#16] (some shadow0) ∧
    (afterInit [.write16 0xC400#16] []).env = [] := ⟨rfl, rfl, rfl⟩
theorem witness_ForeignTransactionChangesNothing :
    (afterInit [] [.foreign [true, false]]).env = .foreign [true, false] :: [] := rfl
theorem witness_PowerOnState_and_PowerCycle : (afterInit [] [.powerCycle]).env = .powerCycle :: [] ∧
    (afterInit [] [.powerCycle]).index = 0 ∧ { afterInit [.setPhase 90] [.powerCycle] with index := 1 }.index ≠ 0 :=
  ⟨rfl, rfl, by decide⟩
theorem witness_CallBeforeInitRefused (op : Operation) :
    let s := { State.powerOn vectorParams with queue := [op] }
    s.queue = op :: [] ∧ quiet s ∧ s.initialised = false := ⟨rfl, .inl rfl, rfl⟩
theorem witness_InvalidParameterBeforeAnyWord (op : Operation) :
    let s := afterInit [op] []
    s.queue = op :: [] ∧ quiet s ∧ s.initialised = true ∧ s.shadow ≠ none ∧ s.params.refClkHz / 2 < 12500001 ∧
      (-1 : Rat) < 0 :=
  ⟨rfl, .inl rfl, rfl, nofun, by show (25000000 : Rat) / 2 < 12500001; decide +kernel, by decide +kernel⟩
theorem witness_CodecOperationsPure :
    quiet (afterInit [.encFreq 400 false] []) ∧
    encFreq (afterInit [.encFreq 400 false] []).params.refClkHz 400 false = .ok [0x50C7#16, 0x4000#16] :=
  ⟨.inl rfl, test_encFreq_400⟩
theorem witness_InitEstablishesState :
    let s := { State.powerOn vectorParams with
      queue := [.init 400 0 .sine], env := answers [.ok, .ok, .ok, .ok, .ok] ++ [] }
    0 < s.params.refClkHz ∧ freqValid s.params.refClkHz 400 ∧ s.queue = [.init 400 0 .sine] ∧ s.index = 0 ∧
    s.env = answers [.ok, .ok, .ok, .ok, .ok] ++ [] :=
  ⟨by decide +kernel, by decide +kernel, rfl, rfl, rfl⟩
theorem witness_FailedInitLeavesUninitialised (i : Nat) (c : Delivery) :
    let s := afterInit [.init 400 0 .sine, .setPhase 90] (answers (List.replicate i .ok ++ [.fail c]) ++ [])
    freqValid s.params.refClkHz 400 ∧ s.queue = [.init 400 0 .sine, .setPhase 90] ∧ s.index = 0 ∧ 0 < 5 ∧ 4 < 5 ∧
    s.env = answers (List.replicate i .ok ++ [.fail c]) ++ [] :=
  ⟨by show freqValid 25000000 400; decide +kernel, rfl, rfl, by decide, by decide, rfl⟩
theorem test_failed_rerun_of_init :
    (match step (afterInit [.init 400 0 .sine] [.answer (.fail .lost)]) with
      | .next t => some (t.initialised, t.shadow, t.results)
      | .fault _ => none
      | .refused _ => none) = some (false, some shadow0, [.error (.transportFailure 0)]) := by decide +kernel
theorem witness_OutputHeldDuringInit : 1 ≤ 1 ∧ 1 < 5 ∧ 1 ≤ 5 ∧ ¬ 5 < 5 := by decide
theorem witness_SetFrequencyWritesThenSwaps :
    let s := afterInit [.setFrequency 2000] (answers [.ok, .ok, .ok] ++ [])
    Agrees s shadow0 ∧ 0 < s.params.refClkHz ∧ freqValid s.params.refClkHz 2000 ∧ s.queue = [.setFrequency 2000] ∧
    s.index = 0 := ⟨witness_Agrees _ _, by decide +kernel, by decide +kernel, rfl, rfl⟩
theorem witness_SetPhaseWritesThenSwaps :
    let s := afterInit [.setPhase 90] (answers [.ok, .ok] ++ [])
    Agrees s shadow0 ∧ s.queue = [.setPhase 90] ∧ s.index = 0 := ⟨witness_Agrees _ _, rfl, rfl⟩
theorem witness_SetWaveformSendsOneControlWord :
    let s := afterInit [.setWaveform .triangle] [.answer .ok]
    Agrees s shadow0 ∧ s.queue = [.setWaveform .triangle] ∧ s.index = 0 := ⟨witness_Agrees _ _, rfl, rfl⟩
theorem witness_OldOutputUntilSwap :
    let s := afterInit [.setFrequency 2000] (answers [.ok, .ok] ++ [])
    let u := afterInit [.setPhase 90] [.answer .ok]
    Agrees s shadow0 ∧ s.index = 0 ∧ freqValid s.params.refClkHz 2000 ∧ Agrees u shadow0 ∧ u.index = 0 :=
  ⟨witness_Agrees _ _, rfl, by decide +kernel, witness_Agrees _ _, rfl⟩
theorem witness_AgreementOverFramingRuns :
    let ops := [.setFrequency 2000, .setPhase (-90), .setWaveform .square, .init 1000 0 .sine]
    let s := afterInit ops (answers (List.replicate 20 .ok))
    Agrees s shadow0 ∧ 0 < s.params.refClkHz ∧ s.queue = ops ∧ freqValid s.params.refClkHz 2000 ∧
    freqValid s.params.refClkHz 1000 ∧ s.env = answers (List.replicate (5 * ops.length) .ok) :=
  ⟨witness_Agrees _ _, by decide +kernel, rfl, by decide +kernel, by decide +kernel, rfl⟩
theorem valid_2000 : freqValid 25000000 2000 := by decide +kernel
theorem valid_3000 : freqValid 25000000 3000 := by decide +kernel
theorem witness_Retry (as : List Answer) :
    let s := afterInit [.setFrequency 2000, .setFrequency 3000] (answers as)
    Agrees s shadow0 ∧ s.index = 0 ∧ shadow0.rst = false ∧ s.params.corruptOnFailure = false ∧
    freqValid s.params.refClkHz 2000 ∧ freqValid s.params.refClkHz 3000 ∧
    s.queue = [.setFrequency 2000, .setFrequency 3000] ∧ s.env = answers as :=
  ⟨witness_Agrees _ _, rfl, rfl, rfl, valid_2000, valid_3000, rfl, rfl⟩
theorem witness_FailureStopsTheSequence (c : Delivery) :
    let s := afterInit [.setWaveform .triangle] (answers (List.replicate 0 .ok ++ [.fail c]) ++ [])
    Agrees s shadow0 ∧ s.index = 0 ∧ s.queue = [.setWaveform .triangle] ∧
    (∀ x, Operation.setWaveform .triangle ≠ .write16 x) ∧
    plan (.setWaveform .triangle) s = .emit [0x2002#16] (some { shadow0 with wave := .triangle }) ∧
    ([0x2002#16] : List Word)[0]? = some 0x2002#16 := ⟨witness_Agrees _ _, rfl, rfl, nofun, rfl, rfl⟩
theorem witness_OperationReturnsWithinFiveSteps :
    let as := [.fail .lost, .ok, .ok, .ok, .ok]
    let s := afterInit [.setPhase 90] (answers as ++ [])
    Agrees s shadow0 ∧ s.queue = [.setPhase 90] ∧ (∀ w, Operation.setPhase 90 ≠ .write16 w) ∧ as.length = 5 :=
  ⟨witness_Agrees _ _, rfl, nofun, rfl⟩
theorem witness_ShadowWrittenOnlyOnSuccess :
    ∃ t, step (afterInit [.setWaveform .triangle] [.answer .ok]) = .next t ∧
      t.shadow ≠ (afterInit [.setWaveform .triangle] [.answer .ok]).shadow :=
  ⟨_, step_ok rfl (plan_setWaveform (S := shadow0) rfl rfl) rfl rfl (fun u hu => effect_ctrlWord _ _ _ _ u _ hu), by
    simp [advance, afterInit, shadow0]⟩
/-- A block that is not initialised, before the last word of `init`. -/
def initLastWord : State :=
  { State.powerOn vectorParams with queue := [.init 400 0 .sine], index := 4, env := [.answer .ok] }
theorem witness_InitialisedOnlyByInit_ok :
    ∃ t, step initLastWord = .next t ∧ t.initialised ≠ initLastWord.initialised :=
  ⟨_, step_ok rfl (plan_init (by decide +kernel)) rfl rfl (fun u hu => effect_ctrlWord _ _ _ _ u _ hu), by
    simp [advance, initLastWord, initialisedAfter, State.powerOn]⟩
theorem witness_InitialisedOnlyByInit :
    ∃ t, step (afterInit [.init 400 0 .sine] [.answer (.fail .lost)]) = .next t ∧
      t.initialised ≠ (afterInit [.init 400 0 .sine] [.answer (.fail .lost)]).initialised :=
  ⟨_, step_fail_lost rfl (plan_init (by decide +kernel)) rfl rfl rfl, by
    rw [failWord_initialised]; exact Bool.false_ne_true⟩
theorem witness_TargetFollowsTheBus :
    ∃ t, step (afterInit [.write16 0xC400#16] [.answer .ok]) = .next t ∧
      t.bus = (afterInit [.write16 0xC400#16] [.answer .ok]).bus ++ [.toTarget 0xC400#16 .ok] :=
  ⟨_, rfl, rfl⟩
theorem witness_BlockWordsAreAccepted :
    (∀ w, Operation.setWaveform .sine ≠ .write16 w) ∧
    plan (.setWaveform .sine) (afterInit [] []) = .emit [0x2000#16] (some shadow0) := ⟨nofun, rfl⟩
theorem witness_StepKeepsInv (q : List Operation) :
    Inv (afterInit (.write16 0xC400#16 :: q) [.answer .ok]) ∧
      ∃ t, step (afterInit (.write16 0xC400#16 :: q) [.answer .ok]) = .next t :=
  ⟨{ clockPositive := by show (0 : Rat) < 25000000; decide +kernel
     ctrlSupported := by intro w h; cases h; decide
     nothingBeforeCtrl := nofun
     shadowRuns := by intro S h; cases h; rfl
     initialisedHasShadow := fun _ => rfl
     atWord := .inl rfl }, _, rfl⟩

end Sys2Proof.Tests
end

section
/-! The bus (20_memory.md): the order of a word's bits, transfers of another length, and other users' transactions. -/

namespace Sys2Proof.Machine

/-! ### The bits of a word, and transfers that are no word -/

/-- The `k`-th bit on the bus is the word's `k`-th bit from the top. -/
theorem serialise_getElem? (w : Word) {k : Nat} (hk : k < 16) : (serialise w)[k]? = some (w.getLsbD (15 - k)) := by
  have position : (List.range 16)[k]? = some k := List.getElem?_range hk
  have bit : w.getMsbD k = w.getLsbD (15 - k) := by simp [BitVec.getMsbD, hk]
  rw [serialise, List.getElem?_map, position, Option.map_some, bit]

theorem decodeBits_of_length_ne {bits : List Bool} (h : bits.length ≠ 16) :
    decodeBits bits = .error (.notSixteenBits bits.length) := if_neg h

/-- The receiver refuses under its own name what the decoder rejects. -/
theorem receive_of_decode_error {bits : List Bool} {n : Nat} (s : State)
    (h : decodeBits bits = .error (.notSixteenBits n)) : receive bits s = .refused (.transferNotSixteenBits n) := by
  rw [receive, h]

/-- Settles O4: the length and the receiver's word are the bus's own laws, the positions are `serialise_getElem?`. -/
theorem serialiseMostSignificantFirst : Obligations.SerialiseMostSignificantFirst := fun w =>
  ⟨serialise_length w, fun _ hk => serialise_getElem? w hk, deserialise_serialise w⟩

/-- Settles O5: the decoder rejects by the length alone, and the receiver passes that on. -/
theorem oddTransferRefused : Obligations.OddTransferRefused := fun _ s hlen =>
  have rejected := decodeBits_of_length_ne hlen
  ⟨rejected, receive_of_decode_error s rejected⟩

/-! ### Other users of the bus -/

/-- A foreign transaction that is due goes before the block's operation, whatever the queue holds. -/
theorem step_of_foreign {s : State} {bits : List Bool} {env : List EnvEvent} (he : s.env = .foreign bits :: env) :
    step s = .next (foreignTransaction bits { s with env := env }) := by
  rw [step, he]

/-- Settles O27: the step is `foreignTransaction`, which only enters the bits in the bus's history. -/
theorem foreignTransactionChangesNothing : Obligations.ForeignTransactionChangesNothing := by
  intro s bits env he
  rw [step_of_foreign he, foreignTransaction_eq, record]

end Sys2Proof.Machine
end

section
/-! Frequency encoding and the FREQ0 and FREQ1 words (40_frequency.md). -/

namespace Sys2Proof.Machine

/-! ### The FrequencyWord -/

/-- A 28-bit word is its two halves put together again (30_encoding.md R75). -/
@[simp] theorem joinHalves_hiHalf_loHalf (fw : FreqWord) : joinHalves (hiHalf fw) (loHalf fw) = fw := by
  have adjacent := BitVec.extractLsb'_append_extractLsb'_eq_extractLsb' (x := fw)
    (start₁ := 0) (len₁ := 14) (start₂ := 14) (len₂ := 14) rfl
  exact adjacent.trans BitVec.extractLsb'_eq_self

theorem roundHalfUp_eq_floor (x : Rat) : roundHalfUp x = ⌊x + 1 / 2⌋ := rfl

/-- R102, the lower bound. -/
theorem freqNumber_nonneg {ref hz : Rat} (hpos : 0 < ref) (hv : freqValid ref hz) : 0 ≤ freqNumber ref hz := by
  have quotient : 0 ≤ hz * 2 ^ 28 / ref := div_nonneg (mul_nonneg hv.1 (by norm_num)) hpos.le
  rw [freqNumber, roundHalfUp_eq_floor]
  exact Int.floor_nonneg.mpr (by linarith)

/-- R102, the upper bound: `REF / 2` itself gives `2^27`. -/
theorem freqNumber_le {ref hz : Rat} (hpos : 0 < ref) (hv : freqValid ref hz) : freqNumber ref hz ≤ 2 ^ 27 := by
  have quotient : hz * 2 ^ 28 / ref ≤ 2 ^ 27 := (div_le_iff₀ hpos).mpr (by linarith [hv.2])
  rw [freqNumber, roundHalfUp_eq_floor, Int.floor_le_iff]
  push_cast
  linarith

/-- The FrequencyWord of a valid frequency is the rounded number, nothing cut off. -/
theorem freqWordOf_toNat {ref hz : Rat} (hpos : 0 < ref) (hv : freqValid ref hz) :
    ((freqWordOf ref hz).toNat : Int) = freqNumber ref hz := by
  have lower := freqNumber_nonneg hpos hv
  have upper := freqNumber_le hpos hv
  rw [freqWordOf, BitVec.toNat_ofInt]
  omega

/-! ### `enc_freq` -/

/-- R101's range and R104's two grounds for rejection exclude each other. -/
theorem not_freqValid_of_out_of_range {ref hz : Rat} (h : hz < 0 ∨ ref / 2 < hz) : ¬ freqValid ref hz := by
  rintro ⟨low, high⟩
  rcases h with below | above
  · exact low.not_gt below
  · exact high.not_gt above

/-- Settles O6: the words of a valid frequency are `encFreq_of_valid`'s, and their halves join to the FrequencyWord,
which is the rounded number by `freqWordOf_toNat`. -/
theorem encFreqGivesTaggedHalves : Obligations.EncFreqGivesTaggedHalves := by
  intro ref hz s hpos
  refine ⟨fun out => encFreq_of_invalid s (not_freqValid_of_out_of_range out), fun low high => ?_⟩
  have valid : freqValid ref hz := ⟨low, high⟩
  have joined : hiHalf (freqWordOf ref hz) ++ loHalf (freqWordOf ref hz) = freqWordOf ref hz :=
    joinHalves_hiHalf_loHalf _
  refine ⟨loHalf (freqWordOf ref hz), hiHalf (freqWordOf ref hz), encFreq_of_valid s valid, ?_⟩
  rw [joined, freqWordOf_toNat hpos valid, freqNumber, roundHalfUp_eq_floor]

/-! ### The FREQ0 and FREQ1 words at the target -/

/-- The two F words share one meaning; the selector is the word's tag (R109). -/
theorem exec_freq (sel : Sel) (d : Half) (s : State) :
    exec (if sel then .freq1 d else .freq0 d) s = onFreqWord sel d s := by
  cases sel <;> rfl

section
variable {sel : Sel} {d : Half} {s : State}

/-- R111, without a control word. -/
theorem onFreqWord_of_ctrl_none (h : s.target.ctrl = none) : onFreqWord sel d s = .refused .freqBeforeCtrl := by
  rw [onFreqWord, h]

/-- R111, `B28 = 0`. -/
theorem onFreqWord_of_b28_clear {c : Word} (h : s.target.ctrl = some c) (hb : ctrlB28 c = false) :
    onFreqWord sel d s = .refused .freqB28Clear := by
  simp [onFreqWord, h, hb]

/-- Under `B28 = 1` the word is the next half the latch takes. -/
theorem onFreqWord_of_b28_set {c : Word} (h : s.target.ctrl = some c) (hb : ctrlB28 c = true) :
    onFreqWord sel d s = .next { s with target := s.target.takeHalf sel d } := by
  simp [onFreqWord, h, hb]
end

/-- Settles O16: R111's refusals are the control register's cases of `onFreqWord`, and R109's next states are
`takeHalf`'s cases of the latch. -/
theorem freqWordAtTarget : Obligations.FreqWordAtTarget := by
  intro sel d s i
  have meaning : exec i s = onFreqWord sel d s := exec_freq sel d s
  rw [meaning]
  refine ⟨onFreqWord_of_ctrl_none, fun c => onFreqWord_of_b28_clear, fun c hc hb => ?_⟩
  rw [onFreqWord_of_b28_set hc hb]
  refine ⟨fun empty => ?first, fun lo waiting => ?second, ?broken⟩
  case first => rw [Target.takeHalf_first _ _ empty]
  case second => rw [Target.takeHalf_second _ _ waiting, joinHalves]
  case broken =>
    rintro (⟨s', lo, other, waiting⟩ | unknown)
    · rw [Target.takeHalf_mismatch _ _ waiting other]
    · rw [Target.takeHalf_unknown _ _ unknown]

end Sys2Proof.Machine
end

section
/-! Phase encoding and the PHASE0 and PHASE1 words (41_phase.md). -/

namespace Sys2Proof.Machine

/-! ### The PhaseWord and `enc_phase` -/

/-- The reduction by R120 is the only one: twelve bits cut nothing off a Euclidean remainder mod 2^12. -/
theorem phaseWordOf_toNat (deg : Rat) : ((phaseWordOf deg).toNat : Int) = phaseNumber deg % 2 ^ 12 := by
  rw [phaseWordOf, BitVec.toNat_ofInt]
  omega

/-- Settles O9: the word is R123's own, and its data bits are the rounded number's remainder by `phaseWordOf_toNat`. -/
theorem encPhaseGivesTaggedWord : Obligations.EncPhaseGivesTaggedWord := by
  intro deg s
  have data : ((phaseWordOf deg).toNat : Int) = ⌊deg * 2 ^ 12 / 360 + 1 / 2⌋ % 2 ^ 12 := by
    rw [phaseWordOf_toNat, phaseNumber, roundHalfUp_eq_floor]
  exact ⟨phaseWordOf deg, rfl, data⟩

/-! ### The PHASE0 and PHASE1 words at the target -/

/-- The two P words share one meaning: the selector is the word's tag and bit 12 is ignored (R125). -/
theorem exec_phase (sel : Sel) (x : Bool) (d : PhaseWord) (s : State) :
    exec (if sel then .phase1 x d else .phase0 x d) s = .next { s with target := s.target.takePhase sel d } := by
  cases sel <;> rfl

section
variable {t : Target} (sel : Sel) (d : PhaseWord)

/-- Inside a pair, the pending register and the latch become unknown. -/
theorem Target.takePhase_of_half {s' : Sel} {lo : Half} (h : t.pend = .half s' lo) :
    t.takePhase sel d =
      { t with freq := t.freq.set s' none, phase := t.phase.set sel (some d), pend := .unknown } := by
  simp [takePhase, breakPair, setPhase, setFreq, Pend.afterPhase, h]

/-- Under an unknown latch, both frequency registers become unknown. -/
theorem Target.takePhase_of_unknown (h : t.pend = .unknown) :
    t.takePhase sel d = { t with freq := ⟨none, none⟩, phase := t.phase.set sel (some d), pend := .unknown } := by
  simp [takePhase, breakPair, setPhase, forgetFreqs, Pend.afterPhase, h]
end

/-- Settles O17: `exec_phase` gives one meaning for both registers and both values of bit 12, and R125's next states are
`takePhase`'s three cases of the latch. -/
theorem phaseWordAtTarget : Obligations.PhaseWordAtTarget := by
  intro sel x d s
  rw [exec_phase]
  cases latch : s.target.pend with
  | none => rw [Target.takePhase_of_none _ _ latch, latch]
  | half s' lo => rw [Target.takePhase_of_half _ _ latch]
  | unknown => rw [Target.takePhase_of_unknown _ _ latch]

end Sys2Proof.Machine
end

section
/-! The control word (42_control.md). -/

namespace Sys2Proof.Machine

/-! ### The bits of `enc_ctrl`'s word -/

/-- `bitAt b i` sets no position but `i`, and that one to `b`. -/
theorem getLsbD_bitAt (b : Bool) {i k : Nat} (hi : i < 16) : (bitAt b i).getLsbD k = (decide (k = i) && b) := by
  cases b with
  | false => simp [bitAt]
  | true =>
    have power : bitAt true i = BitVec.twoPow 16 i := rfl
    simp [power, BitVec.getLsbD_twoPow, hi, eq_comm]

/-- R142's table, bit by bit: `OPBITEN` and `DIV2` are square's, `MODE` is triangle's. -/
theorem waveBits_eq_bitAt (wave : Waveform) :
    waveBits wave = bitAt (wave = .square) 5 ||| bitAt (wave = .square) 3 ||| bitAt (wave = .triangle) 1 := by
  cases wave <;> rfl

/-- A position of the control word is set by the one field that stands there. -/
theorem getLsbD_ctrlWord (wave : Waveform) (fsel psel rst : Bool) (k : Nat) :
    (ctrlWord wave fsel psel rst).getLsbD k =
      (decide (k = 13) || decide (k = 11) && fsel || decide (k = 10) && psel || decide (k = 8) && rst ||
        (decide (k = 5) && decide (wave = .square) || decide (k = 3) && decide (wave = .square) ||
          decide (k = 1) && decide (wave = .triangle))) := by
  have base : (0x2000#16 : Word) = bitAt true 13 := rfl
  simp [ctrlWord, base, waveBits_eq_bitAt, BitVec.getLsbD_or, getLsbD_bitAt]

/-- Settles O12: `getLsbD_ctrlWord` at each of the sixteen positions. -/
theorem encCtrlFields : Obligations.EncCtrlFields := by
  intro wave fsel psel rst
  refine ⟨ctrlWord wave fsel psel rst, rfl, ?_⟩
  simp only [getLsbD_ctrlWord]
  simp

end Sys2Proof.Machine
end

section
/-! Power-on, and the words of `set_frequency` and `set_phase` before their control word
(70_reset_and_hazards.md R220, R232). -/

namespace Sys2Proof.Machine

/-! ### Power-on -/

/-- A power cycle that is due goes before the block's operation, whatever the queue holds. -/
theorem step_of_powerCycle {s : State} {env : List EnvEvent} (he : s.env = .powerCycle :: env) :
    step s = .next (powerCycle { s with env := env }) := by
  rw [step, he]

/-- Settles O23: reset is power-on, and the step of a power cycle is `powerCycle`, which leaves the same shadow, flag and
image behind. -/
theorem powerOnState : Obligations.PowerOnState :=
  ⟨rfl, rfl, rfl, fun _ _ due =>
    ⟨_, step_of_powerCycle due, powerCycle_shadow _, powerCycle_initialised _, powerCycle_target _⟩⟩

/-! ### What the output depends on -/

/-- R28 reads the control register and the two registers it selects, and nothing else of the image. -/
theorem observe_congr {ref : Rat} {t u : Target} {c : Word} (known : t.ctrl = some c) (ctrl : u.ctrl = t.ctrl)
    (freq : u.freq.get (ctrlFselect c) = t.freq.get (ctrlFselect c))
    (phase : u.phase.get (ctrlPselect c) = t.phase.get (ctrlPselect c)) : observe ref u = observe ref t := by
  simp only [observe, ctrl, known, freq, phase]

/-- Under agreement the selected registers are the ones the shadow names. -/
theorem Agrees.observation_eq {s t : State} {S : Shadow} (agree : Agrees s S) (params : t.params = s.params)
    (ctrl : t.target.ctrl = s.target.ctrl) (freq : t.target.freq.get S.fsel = s.target.freq.get S.fsel)
    (phase : t.target.phase.get S.psel = s.target.phase.get S.psel) : t.observation = s.observation := by
  rw [State.observation, State.observation, params]
  exact observe_congr agree.ctrl ctrl (by rwa [ctrlFselect_ctrlWord]) (by rwa [ctrlPselect_ctrlWord])

/-! ### The data words of `set_frequency` and `set_phase` -/

section
variable {s : State} {S : Shadow} {ops : List Operation} {env : List EnvEvent}

/-- A word answered `ok` with another word of its operation to follow: the block goes on to that one. -/
theorem step_ok_of_more {op : Operation} {ws rest : List Word} {after : Option Shadow} {w w' : Word} {T : Target}
    (hq : s.queue = op :: ops) (hp : plan op s = .emit ws after) (hd : ws.drop s.index = w :: w' :: rest)
    (he : s.env = .answer .ok :: env)
    (hx : ∀ u : State, u.target = s.target → deliver w u = .next { u with target := T }) :
    step s = .next { sentState s env w .ok T with index := s.index + 1 } := by
  rw [step_ok hq hp hd he hx, advance, if_neg (List.cons_ne_nil w' rest)]

/-- The block after the first word of `set_frequency`: the low half waits for the inactive register. -/
abbrev lowHalfSent (s : State) (S : Shadow) (hz : Rat) (env : List EnvEvent) : State :=
  { sentState s env (freqTag (!S.fsel) ++ loHalf (freqWordOf s.params.refClkHz hz)) .ok
      { s.target with pend := .half (!S.fsel) (loHalf (freqWordOf s.params.refClkHz hz)) } with index := 1 }

theorem lowHalfSent_pend (hz : Rat) : (lowHalfSent s S hz env).target.pend =
    .half (!S.fsel) (loHalf (freqWordOf s.params.refClkHz hz)) := rfl

/-- The control word of the old output still stands. -/
theorem Agrees.lowHalfSent_ctrl (agree : Agrees s S) (hz : Rat) :
    (lowHalfSent s S hz env).target.ctrl = some (ctrlWord S.wave S.fsel S.psel S.rst) := agree.ctrl

/-- The block after the second: the whole new value stands in the inactive register. -/
abbrev bothHalvesSent (s : State) (S : Shadow) (hz : Rat) (env : List EnvEvent) : State :=
  { sentState (lowHalfSent s S hz env) env (freqTag (!S.fsel) ++ hiHalf (freqWordOf s.params.refClkHz hz)) .ok
      { s.target with
        freq := s.target.freq.set (!S.fsel) (some (freqWordOf s.params.refClkHz hz))
        pend := .none } with index := 2 }

section
variable {hz : Rat} (agree : Agrees s S) (valid : freqValid s.params.refClkHz hz)
  (hq : s.queue = .setFrequency hz :: ops)
include agree valid hq

theorem step_setFrequency_first (hi : s.index = 0) (he : s.env = .answer .ok :: env) :
    step s = .next (lowHalfSent s S hz env) := by
  have sent := step_ok_of_more hq (plan_setFrequency agree.initialised agree.shadow valid) (by rw [hi]; rfl) he
    (fun u hu => effect_freq _ _ u _ agree.ctrl hu)
  rwa [Target.takeHalf_first _ _ agree.pend, hi] at sent

theorem step_setFrequency_second :
    step (lowHalfSent s S hz (.answer .ok :: env)) = .next (bothHalvesSent s S hz env) := by
  have sent := step_ok_of_more (s := lowHalfSent s S hz (.answer .ok :: env)) hq
    (plan_setFrequency agree.initialised agree.shadow valid) rfl rfl
    (fun u hu => effect_freq _ _ u _ (agree.lowHalfSent_ctrl hz) hu)
  rwa [Target.takeHalf_second _ _ (lowHalfSent_pend hz), joinHalves_hiHalf_loHalf] at sent
end

/-- The first word of `set_phase` is the whole new value of the inactive register. -/
theorem step_setPhase_first {deg : Rat} (agree : Agrees s S) (hq : s.queue = .setPhase deg :: ops) (hi : s.index = 0)
    (he : s.env = .answer .ok :: env) :
    step s = .next { sentState s env (phaseTag (!S.psel) ++ 0#1 ++ phaseWordOf deg) .ok
        { s.target with phase := s.target.phase.set (!S.psel) (some (phaseWordOf deg)) } with index := 1 } := by
  have sent := step_ok_of_more hq (plan_setPhase agree.initialised agree.shadow) (by rw [hi]; rfl) he
    (fun u hu => effect_phase _ _ u _ hu)
  rwa [Target.takePhase_of_none _ _ agree.pend, hi] at sent
end

/-- Settles O37: up to the control word only the latch and the inactive register change, and by `Agrees.observation_eq`
the output reads neither. -/
theorem oldOutputUntilSwap : Obligations.OldOutputUntilSwap := by
  intro s S ops env agree start
  refine ⟨fun hz valid hq he k hk => ?frequency, fun deg hq he => ?phase⟩
  case frequency =>
    have first := step_setFrequency_first agree valid hq start he
    have second := step_setFrequency_second (env := env) agree valid hq
    obtain rfl | rfl | rfl : k = 0 ∨ k = 1 ∨ k = 2 := by omega
    · exact ⟨s, run_zero s, rfl, rfl, rfl, rfl, nofun⟩
    · exact ⟨_, run_succ first, rfl, rfl, rfl, agree.observation_eq rfl rfl rfl rfl, nofun⟩
    · have active := Slots.get_set_not s.target.freq (some (freqWordOf s.params.refClkHz hz)) S.fsel
      exact ⟨_, (run_succ first).trans (run_succ second), active, rfl, rfl,
        agree.observation_eq rfl rfl active rfl, fun _ => Slots.get_set_same _ _ _⟩
  case phase =>
    have active := Slots.get_set_not s.target.phase (some (phaseWordOf deg)) S.psel
    exact ⟨_, step_setPhase_first agree hq start he, active, rfl, rfl,
      agree.observation_eq rfl rfl rfl active, Slots.get_set_same _ _ _⟩

end Sys2Proof.Machine
end

section
/-! The encoding (30_encoding.md): decoding undoes encoding, every word is some instruction's, and the written forms. -/

namespace Sys2Proof.Machine

/-! ### Decoding an encoded instruction -/

/-- A C word decodes to CTRL with its 14 field bits (R74). -/
theorem decodeWord_ctrl (f : BitVec 14) : decodeWord (0b00#2 ++ f) = .ctrl f := by
  rw [decodeWord, Laws.Tag.extract_tag, extract_data, if_pos rfl]

theorem decodeWord_encode (i : Instr) : decodeWord (encode i) = i := by
  cases i with
  | ctrl f => exact decodeWord_ctrl f
  | freq0 d => exact decodeWord_freq false d
  | freq1 d => exact decodeWord_freq true d
  | phase0 x d => exact decodeWord_phase false x d
  | phase1 x d => exact decodeWord_phase true x d

/-- The bus loses nothing: the receiver decodes the word that was sent. -/
theorem decodeBits_serialise (w : Word) : decodeBits (serialise w) = .ok (decodeWord w) := by
  rw [decodeBits, if_pos (serialise_length w), deserialise_serialise]

/-- The opcode table numbers a word by its value. -/
theorem decodeTableWord_toNat (w : Word) : decodeTableWord 16 w.toNat = some (decodeWord w) := by
  rw [decodeTableWord, if_pos ⟨rfl, w.isLt⟩, BitVec.ofNat_toNat, BitVec.setWidth_eq, decodeBits_serialise]

/-- Settles O2: `decodeWord_encode`, by the constructors of `Instr`; the bus and the table hand the decoder the same
word. -/
theorem decodeEncodeAgree : Obligations.DecodeEncodeAgree := fun i =>
  ⟨decodeWord_encode i, by rw [decodeBits_serialise, decodeWord_encode],
    by rw [decodeTableWord_toNat, decodeWord_encode]⟩

/-! ### Encoding a decoded word -/

/-- A word is its two high bits over its 14 low bits. -/
theorem word_eq_append14 (w : Word) : w.extractLsb' 14 2 ++ w.extractLsb' 0 14 = w :=
  (BitVec.extractLsb'_append_extractLsb'_eq_extractLsb' (x := w) rfl).trans BitVec.extractLsb'_eq_self

/-- A word is its three high bits over bit 12 and its 12 low bits. -/
theorem word_eq_append12 (w : Word) :
    w.extractLsb' 13 3 ++ BitVec.ofBool (w.getLsbD 12) ++ w.extractLsb' 0 12 = w := by
  have bit : BitVec.ofBool (w.getLsbD 12) = w.extractLsb' 12 1 := by
    apply BitVec.eq_of_getLsbD_eq
    intro i hi
    obtain rfl : i = 0 := by omega
    simp
  have high : w.extractLsb' 13 3 ++ w.extractLsb' 12 1 = w.extractLsb' 12 4 :=
    BitVec.extractLsb'_append_extractLsb'_eq_extractLsb' rfl
  rw [bit, high]
  exact (BitVec.extractLsb'_append_extractLsb'_eq_extractLsb' (x := w) rfl).trans BitVec.extractLsb'_eq_self

/-- The tags leave no gap (R51): a word that is neither C nor F and does not begin with `110` begins with `111`. -/
theorem tag_eq_phase1 {w : Word} (h0 : w.extractLsb' 14 2 ≠ 0b00#2) (h1 : w.extractLsb' 14 2 ≠ 0b01#2)
    (h2 : w.extractLsb' 14 2 ≠ 0b10#2) (h3 : w.extractLsb' 13 3 ≠ 0b110#3) : w.extractLsb' 13 3 = 0b111#3 := by
  have top : w.extractLsb' 14 2 = (w.extractLsb' 13 3).extractLsb' 1 2 := by
    apply BitVec.eq_of_getLsbD_eq
    intro i hi
    have inside : 1 + i < 3 := by omega
    simp [hi, inside, ← Nat.add_assoc]
  rw [top] at h0 h1 h2
  generalize w.extractLsb' 13 3 = tag at h0 h1 h2 h3 ⊢
  clear top
  revert tag
  decide

theorem encode_decodeWord (w : Word) : encode (decodeWord w) = w := by
  have fourteen := word_eq_append14 w
  have twelve := word_eq_append12 w
  unfold decodeWord
  split
  case isTrue tag => rwa [tag] at fourteen
  split
  case isTrue tag => rwa [tag] at fourteen
  split
  case isTrue tag => rwa [tag] at fourteen
  split
  case isTrue tag => rwa [tag] at twelve
  case isFalse h0 h1 h2 h3 => rwa [tag_eq_phase1 h0 h1 h2 h3] at twelve

/-- Settles O3: the word of the decoded instruction is the word again, and by `decodeWord_encode` no other instruction
has it. -/
theorem everyWordNamesOneRegister : Obligations.EveryWordNamesOneRegister := fun w =>
  ⟨encode_decodeWord w, fun i hi => by rw [← hi, decodeWord_encode]⟩

/-- Settles O1: the decoder evaluated at the six words. -/
theorem specWordsDecode : Obligations.SpecWordsDecode := by
  unfold Obligations.SpecWordsDecode
  decide

/-! ### The written forms -/

theorem assemble_phase (s : Sel) (d : PhaseWord) :
    (Written.phase s d).assemble = phaseTag s ++ BitVec.ofBool false ++ d := by
  cases s <;> rfl

/-- Either half is written under the register's tag; which half it is shows in no bit. -/
theorem assemble_freq (s : Sel) (d : Half) :
    (Written.freqLo s d).assemble = freqTag s ++ d ∧ (Written.freqHi s d).assemble = freqTag s ++ d := by
  cases s <;> exact ⟨rfl, rfl⟩

/-- Settles O14: the written control word is `enc_ctrl`'s by definition, and the F and P forms are tagged words that
`decodeWord_freq` and `decodeWord_phase` read. -/
theorem writtenFormsStandForWords : Obligations.WrittenFormsStandForWords := by
  refine ⟨fun _ _ _ _ => rfl, fun s d => ?_, fun s d => ?_, fun _ => rfl⟩
  · rw [(assemble_freq s d).1, (assemble_freq s d).2, decodeWord_freq]
    exact ⟨rfl, rfl⟩
  · rw [assemble_phase, decodeWord_phase]

end Sys2Proof.Machine
end

section
/-! What rounding costs (40_frequency.md, 41_phase.md): the range and accuracy of the frequency word, the period and
accuracy of the phase word; and what the control word carries (42_control.md R144). -/

namespace Sys2Proof.Machine

theorem roundHalfUp_eq_round (x : Rat) : roundHalfUp x = round x := (round_eq x).symm

/-- Rounding moves a number by at most one half (R9). -/
theorem abs_roundHalfUp_sub_le (x : Rat) : |(roundHalfUp x : Rat) - x| ≤ 1 / 2 := by
  rw [roundHalfUp_eq_round, abs_sub_comm]
  exact abs_sub_round x

/-! ### The frequency word -/

/-- Up to `2^27`, bit 27 is set by `2^27` alone. -/
theorem getLsbD_top_iff {fw : FreqWord} (h : fw.toNat ≤ 2 ^ 27) : fw.getLsbD 27 = true ↔ 2 ^ 27 ≤ fw.toNat := by
  rw [BitVec.getLsbD]
  constructor
  · exact Nat.ge_two_pow_of_testBit
  · intro top
    rw [le_antisymm h top]
    exact Nat.testBit_two_pow_self

/-- The rounded number reaches `2^27` half a step below `REF / 2`. -/
theorem le_freqNumber_iff {ref hz : Rat} (hpos : 0 < ref) :
    2 ^ 27 ≤ freqNumber ref hz ↔ (2 ^ 27 - 1 / 2) * ref / 2 ^ 28 ≤ hz := by
  rw [freqNumber, roundHalfUp_eq_floor, Int.le_floor, ← sub_le_iff_le_add, le_div_iff₀ hpos,
    div_le_iff₀ (by norm_num : (0 : Rat) < 2 ^ 28)]
  push_cast
  rfl

/-- Settles O7: `freqWordOf_toNat` makes the word the rounded number, which `freqNumber_le` bounds; so bit 27 asks
whether that number reaches `2^27`. -/
theorem frequencyWordWithinRange : Obligations.FrequencyWordWithinRange := by
  intro ref hz hpos valid
  have value := freqWordOf_toNat hpos valid
  have bound : (freqWordOf ref hz).toNat ≤ 2 ^ 27 := by
    have := freqNumber_le hpos valid
    omega
  refine ⟨value, bound, ?_⟩
  rw [getLsbD_top_iff bound, ← le_freqNumber_iff hpos, ← value]
  norm_cast

/-- `decode_freq` joins the halves of two F words of one register (R108). -/
theorem decodeFreq_freq (ref : Rat) (s : Sel) (lo hi : Half) :
    decodeFreq ref (freqTag s ++ lo) (freqTag s ++ hi) = some (((joinHalves hi lo).toNat : Rat) * ref / 2 ^ 28) := by
  rw [decodeFreq, decodeWord_freq, decodeWord_freq]
  cases s <;> rfl

/-- R107: the frequency of the rounded number is at most half a step away. -/
theorem abs_freqOfWord_sub_le {ref hz : Rat} (hpos : 0 < ref) (valid : freqValid ref hz) :
    |freqOfWord ref (freqWordOf ref hz) - hz| ≤ ref / 2 ^ 29 := by
  have value : ((freqWordOf ref hz).toNat : Rat) = roundHalfUp (hz * 2 ^ 28 / ref) := by
    exact_mod_cast freqWordOf_toNat hpos valid
  have rounding := abs_roundHalfUp_sub_le (hz * 2 ^ 28 / ref)
  have scaled : freqOfWord ref (freqWordOf ref hz) - hz =
      (roundHalfUp (hz * 2 ^ 28 / ref) - hz * 2 ^ 28 / ref) * (ref / 2 ^ 28) := by
    rw [freqOfWord, value]
    field_simp
  rw [scaled, abs_mul, abs_of_pos (by positivity : 0 < ref / 2 ^ 28)]
  calc _ ≤ 1 / 2 * (ref / 2 ^ 28) := by gcongr
    _ = ref / 2 ^ 29 := by ring

/-- Settles O8: `decode_freq` of the two words is the frequency of the word they halve. -/
theorem frequencyWithinHalfStep : Obligations.FrequencyWithinHalfStep := fun ref hz s hpos valid =>
  ⟨_, _, _, encFreq_of_valid s valid, by rw [decodeFreq_freq, joinHalves_hiHalf_loHalf, freqOfWord],
    abs_freqOfWord_sub_le hpos valid⟩

/-! ### The phase word -/

/-- A turn is `2^12` steps, so whole turns come out of the rounding. -/
theorem phaseNumber_add_turns (deg : Rat) (k : Int) : phaseNumber (deg + 360 * k) = phaseNumber deg + 2 ^ 12 * k := by
  have steps : (deg + 360 * k) * 2 ^ 12 / 360 = deg * 2 ^ 12 / 360 + ((2 ^ 12 * k : Int) : Rat) := by
    push_cast
    ring
  rw [phaseNumber, phaseNumber, roundHalfUp_eq_round, roundHalfUp_eq_round, steps, round_add_intCast]

/-- Settles O10: the turns that `phaseNumber_add_turns` takes out are multiples of `2^12`, which R120's remainder
drops. -/
theorem phasePeriodic : Obligations.PhasePeriodic := by
  intro deg k s
  rw [encPhase, encPhase, phaseWordOf, phaseWordOf, phaseNumber_add_turns, Int.add_mul_emod_self_left]

/-- Settles O11: the turns are the quotient of which the phase word is the remainder; with them it is the rounded number
of steps, half a step from `deg` at most. -/
theorem phaseWithinHalfStep : Obligations.PhaseWithinHalfStep := by
  intro deg
  refine ⟨phaseNumber deg / 2 ^ 12, ?_⟩
  have value : ((phaseWordOf deg).toNat : Rat) = phaseNumber deg - 2 ^ 12 * (phaseNumber deg / 2 ^ 12 : Int) := by
    have whole : ((phaseWordOf deg).toNat : Int) = phaseNumber deg - 2 ^ 12 * (phaseNumber deg / 2 ^ 12) := by
      rw [phaseWordOf_toNat, Int.emod_def]
    exact_mod_cast whole
  have rounding := abs_roundHalfUp_sub_le (deg * 2 ^ 12 / 360)
  have scaled : phaseOfWord (phaseWordOf deg) + 360 * (phaseNumber deg / 2 ^ 12 : Int) - deg =
      (roundHalfUp (deg * 2 ^ 12 / 360) - deg * 2 ^ 12 / 360) * (360 / 2 ^ 12) := by
    rw [phaseOfWord, value, phaseNumber]
    ring
  rw [scaled, abs_mul, abs_of_pos (by norm_num : (0 : Rat) < 360 / 2 ^ 12)]
  calc _ ≤ 1 / 2 * (360 / 2 ^ 12) := by gcongr
    _ = (360 / 8192 : Rat) := by norm_num

/-! ### The control word -/

theorem Waveform.shape_injective : Function.Injective Waveform.shape := by
  intro w w' h
  cases w <;> cases w' <;> simp_all [Waveform.shape]

@[simp] theorem waveOf_ctrlWord (w : Waveform) (f p r : Bool) : waveOf (ctrlWord w f p r) = some w.shape := by
  cases w <;> cases f <;> cases p <;> cases r <;> rfl

/-- Settles O13: each argument is read back from the word, the waveform by `wave_of`. -/
theorem controlWordInjective : Obligations.ControlWordInjective := by
  intro w w' f f' p p' r r'
  refine ⟨fun same => ⟨?_, ?_, ?_, ?_⟩, waveOf_ctrlWord w f p r⟩
  · have shapes : some w.shape = some w'.shape := by simpa using congrArg waveOf same
    exact Waveform.shape_injective (Option.some.inj shapes)
  · simpa using congrArg ctrlFselect same
  · simpa using congrArg ctrlPselect same
  · simpa using congrArg ctrlReset same

end Sys2Proof.Machine
end

section
/-! The words at the target (40_frequency.md, 41_phase.md, 42_control.md): refusals, repetition, frames, and what a word
does to the output. -/

namespace Sys2Proof.Machine

/-! ### The CTRL word -/

theorem exec_ctrl (f : BitVec 14) (s : State) : exec (.ctrl f) s = onCtrlWord (0b00#2 ++ f) s := rfl

/-- The target takes a control word that R146 does not refuse. -/
theorem onCtrlWord_of_supported {w : Word} {s : State} (h : reservedOrUnsupported w = false) :
    onCtrlWord w s = .next { s with target := s.target.takeCtrl w } := by
  have unrefused : ctrlRefusal w = none := by simpa [reservedOrUnsupported] using h
  rw [onCtrlWord, unrefused]

/-- Each branch of the check has its own one of R146's six reasons. -/
theorem ctrlRefusal_mem {w : Word} {r : Refusal} (h : ctrlRefusal w = some r) :
    r ∈ [Refusal.ctrlReservedBit, .ctrlB28Clear, .ctrlHlbSet, .ctrlSleep, .ctrlOpbitenMode, .ctrlHalfSquare] := by
  unfold ctrlRefusal at h
  split_ifs at h <;> cases h <;> decide

/-- A word R146 refuses is refused for a reason of R146. -/
theorem onCtrlWord_of_unsupported {w : Word} {s : State} (h : reservedOrUnsupported w = true) :
    ∃ r ∈ [Refusal.ctrlReservedBit, .ctrlB28Clear, .ctrlHlbSet, .ctrlSleep, .ctrlOpbitenMode, .ctrlHalfSquare],
      onCtrlWord w s = .refused r := by
  obtain ⟨r, reason⟩ := Option.isSome_iff_exists.mp h
  exact ⟨r, ctrlRefusal_mem reason, by rw [onCtrlWord, reason]⟩

/-- The field bits of a C word stand at their own positions (R74). -/
theorem getLsbD_ctrl_fields (f : BitVec 14) {k : Nat} (hk : k < 14) : (0b00#2 ++ f).getLsbD k = f.getLsbD k := by
  rw [BitVec.getLsbD_append, if_pos hk]

/-- R146's list, read from the field bits. -/
theorem reservedOrUnsupported_fields (f : BitVec 14) : reservedOrUnsupported (0b00#2 ++ f) =
    (f.getLsbD 9 || f.getLsbD 4 || f.getLsbD 2 || f.getLsbD 0 || !f.getLsbD 13 || f.getLsbD 12 ||
      f.getLsbD 7 || f.getLsbD 6 || (f.getLsbD 5 && f.getLsbD 1) || (f.getLsbD 5 && !f.getLsbD 3)) := by
  simp only [reservedOrUnsupported, ctrlRefusal, ctrlReservedSet, ctrlB28, ctrlHlb, ctrlSleep1, ctrlSleep12,
    ctrlOpbiten, ctrlMode, ctrlDiv2, getLsbD_ctrl_fields, Nat.reduceLT]
  split_ifs <;> simp_all

/-- `enc_ctrl` never gives a refused word (R146). -/
theorem reservedOrUnsupported_ctrlWord (w : Waveform) (f p r : Bool) :
    reservedOrUnsupported (ctrlWord w f p r) = false := by
  rw [reservedOrUnsupported, ctrlRefusal_ctrlWord]
  rfl

/-- Settles O15: `bad` is `reservedOrUnsupported` by `reservedOrUnsupported_fields`, so its two values are the two
branches of `onCtrlWord`, and R145's frequency registers are `breakPair`'s three cases of the latch. -/
theorem ctrlWordAtTarget : Obligations.CtrlWordAtTarget := by
  intro f s bad
  have list : reservedOrUnsupported (0b00#2 ++ f) = bad := reservedOrUnsupported_fields f
  rw [exec_ctrl, ← list]
  refine ⟨onCtrlWord_of_unsupported, fun supported => ?_, fun wave fsel psel rst encoded => ?_⟩
  · rw [onCtrlWord_of_supported supported]
    cases latch : s.target.pend with
    | none => rw [Target.takeCtrl, Target.breakPair_of_none latch]
    | half s' lo => rw [Target.takeCtrl, Target.breakPair_of_half latch]
    | unknown => rw [Target.takeCtrl, Target.breakPair_of_unknown latch]
  · rw [← List.singleton_inj.mp encoded]
    exact reservedOrUnsupported_ctrlWord wave fsel psel rst

/-! ### Repeated words -/

/-- A second copy of a control word finds no half pending and the control register it would write. -/
theorem Target.takeCtrl_takeCtrl (t : Target) (w : Word) : (t.takeCtrl w).takeCtrl w = t.takeCtrl w := by
  rw [takeCtrl_of_none w (takeCtrl_pend w)]
  rfl

@[simp] theorem Slots.set_set {α : Type} (p : Slots α) (i : Sel) (v v' : α) : (p.set i v).set i v' = p.set i v' := by
  cases i <;> rfl

/-- With no half pending a phase word leaves the frequency side alone. -/
theorem Target.takePhase_frequency_of_none {t : Target} (sel : Sel) (d : PhaseWord) (h : t.pend = .none) :
    (t.takePhase sel d).freq = t.freq ∧ (t.takePhase sel d).pend = .none := by
  rw [takePhase_of_none _ _ h]
  exact ⟨rfl, h⟩

/-- A phase word that finds no half pending changes nothing at its second copy. -/
theorem Target.takePhase_takePhase_of_no_half {t : Target} (sel : Sel) (d : PhaseWord)
    (h : ∀ s' lo, t.pend ≠ .half s' lo) : (t.takePhase sel d).takePhase sel d = t.takePhase sel d := by
  cases latch : t.pend with
  | none =>
    have still := (takePhase_frequency_of_none sel d latch).2
    rw [takePhase_of_none _ _ still, takePhase_of_none _ _ latch, Slots.set_set]
  | half s' lo => exact absurd latch (h s' lo)
  | unknown => rw [takePhase_of_unknown _ _ latch, takePhase_of_unknown _ _ rfl, Slots.set_set]

/-- Inside a pair, the second copy finds the latch unknown and loses the other frequency register too. -/
theorem Target.takePhase_takePhase_of_half {t : Target} (sel : Sel) (d : PhaseWord) {s' : Sel} {lo : Half}
    (h : t.pend = .half s' lo) :
    (t.takePhase sel d).takePhase sel d = { t.takePhase sel d with freq := ⟨none, none⟩ } := by
  rw [takePhase_of_half _ _ h, takePhase_of_unknown _ _ rfl, Slots.set_set]

/-- Settles O18: each clause is what a second copy does to the image the first one left. -/
theorem repeatedWords : Obligations.RepeatedWords := by
  refine ⟨fun f s t ran => ?ctrl, fun sel x d s t ran => ?phase, fun sel d s t u empty first second => ?freq⟩
  case ctrl =>
    obtain ⟨supported, rfl⟩ := onCtrlWord_cases ran
    rw [exec_ctrl, onCtrlWord_of_supported supported, Target.takeCtrl_takeCtrl]
  case phase =>
    rw [exec_phase] at ran ⊢
    cases ran
    exact ⟨fun noHalf => by rw [Target.takePhase_takePhase_of_no_half _ _ noHalf],
      fun s' lo waiting => by rw [Target.takePhase_takePhase_of_half _ _ waiting]⟩
  case freq =>
    rw [exec_freq] at first second
    obtain ⟨_, _, _, rfl⟩ := onFreqWord_cases first
    obtain ⟨_, _, _, rfl⟩ := onFreqWord_cases second
    rw [Target.takeHalf_first _ _ empty]
    exact ⟨rfl, by rw [Target.takeHalf_second _ _ rfl, joinHalves]⟩

/-! ### Frames -/

/-- A broken pair loses its own register only. -/
theorem Target.breakPair_freq_other {t : Target} {s' : Sel} {lo : Half} (h : t.pend = .half s' lo) :
    t.breakPair.freq.get (!s') = t.freq.get (!s') := by
  rw [breakPair_of_half h]
  exact Slots.get_set_other _ _ _ _ (Bool.not_ne_self s')

/-- A first half changes no register. -/
theorem Target.takeHalf_freq_of_none {t : Target} (sel : Sel) (d : Half) (h : t.pend = .none) :
    (t.takeHalf sel d).freq = t.freq := by
  rw [takeHalf_first _ _ h]

/-- A second half changes its own register only. -/
theorem Target.takeHalf_freq_other {t : Target} {sel : Sel} (d : Half) {lo : Half} (h : t.pend = .half sel lo) :
    (t.takeHalf sel d).freq.get (!sel) = t.freq.get (!sel) := by
  rw [takeHalf_second _ _ h]
  exact Slots.get_set_other _ _ _ _ (Bool.not_ne_self sel)

/-- A phase word leaves the other phase register. -/
theorem Target.takePhase_phase_other (t : Target) (sel : Sel) (d : PhaseWord) :
    (t.takePhase sel d).phase.get (!sel) = t.phase.get (!sel) := by
  rw [takePhase_phase]
  exact Slots.get_set_other _ _ _ _ (Bool.not_ne_self sel)

/-- Inside a pair a phase word leaves the frequency register that was not waiting. -/
theorem Target.takePhase_freq_other {t : Target} (sel : Sel) (d : PhaseWord) {s' : Sel} {lo : Half}
    (h : t.pend = .half s' lo) : (t.takePhase sel d).freq.get (!s') = t.freq.get (!s') := by
  rw [takePhase_freq, breakPair_freq_other h]

/-- Settles O19: by the constructors of `Instr`; each word changes the image by `takeCtrl`, `takeHalf` or `takePhase`,
whose frames are the lemmas above. -/
theorem wordFrames : Obligations.WordFrames := by
  intro i s t ran
  cases i with
  | ctrl f =>
    obtain ⟨_, rfl⟩ := onCtrlWord_cases ran
    exact ⟨rfl, Target.takeCtrl_phase _, fun empty => by rw [Target.takeCtrl_of_none _ empty],
      fun _ _ waiting => Target.breakPair_freq_other waiting⟩
  | freq0 d =>
    obtain ⟨_, _, _, rfl⟩ := onFreqWord_cases ran
    exact ⟨rfl, Target.takeHalf_phase _ _, Target.takeHalf_ctrl _ _, Target.takeHalf_freq_of_none _ _,
      fun _ waiting => Target.takeHalf_freq_other _ waiting⟩
  | freq1 d =>
    obtain ⟨_, _, _, rfl⟩ := onFreqWord_cases ran
    exact ⟨rfl, Target.takeHalf_phase _ _, Target.takeHalf_ctrl _ _, Target.takeHalf_freq_of_none _ _,
      fun _ waiting => Target.takeHalf_freq_other _ waiting⟩
  | phase0 x d =>
    cases ran
    exact ⟨rfl, Target.takePhase_phase_other _ _ _, Target.takePhase_ctrl _ _,
      Target.takePhase_frequency_of_none _ _, fun _ _ waiting => Target.takePhase_freq_other _ _ waiting⟩
  | phase1 x d =>
    cases ran
    exact ⟨rfl, Target.takePhase_phase_other _ _ _, Target.takePhase_ctrl _ _,
      Target.takePhase_frequency_of_none _ _, fun _ _ waiting => Target.takePhase_freq_other _ _ waiting⟩

/-! ### The output -/

section
variable {ref : Rat} {t : Target} {c : Word}

theorem observe_held (known : t.ctrl = some c) (reset : ctrlReset c = true) : observe ref t = some .held := by
  simp [observe, known, reset]

theorem observe_run {fw : FreqWord} {pw : PhaseWord} {wave : Shape} (known : t.ctrl = some c)
    (reset : ctrlReset c = false) (freq : t.freq.get (ctrlFselect c) = some fw)
    (phase : t.phase.get (ctrlPselect c) = some pw) (shape : waveOf c = some wave) :
    observe ref t = some (.run (freqOfWord ref fw) (phaseOfWord pw) wave) := by
  simp [observe, known, reset, freq, phase, shape]

/-- An output means a known control word: in reset it is held, and running it needs both selected registers and a
shape. -/
theorem observe_cases {o : Observation} (h : observe ref t = some o) : ∃ c, t.ctrl = some c ∧
    ((ctrlReset c = true ∧ o = .held) ∨
      ∃ fw pw wave, ctrlReset c = false ∧ t.freq.get (ctrlFselect c) = some fw ∧
        t.phase.get (ctrlPselect c) = some pw ∧ waveOf c = some wave ∧
        o = .run (freqOfWord ref fw) (phaseOfWord pw) wave) := by
  unfold observe at h
  split at h
  case h_1 => cases h
  case h_2 c known =>
    refine ⟨c, known, ?_⟩
    split at h
    case isTrue reset => exact .inl ⟨reset, (Option.some.inj h).symm⟩
    case isFalse running =>
      split at h
      case h_1 fw pw wave freq phase shape =>
        exact .inr ⟨fw, pw, wave, by simpa using running, freq, phase, shape, (Option.some.inj h).symm⟩
      case h_2 => cases h
end

/-- Settles O22: `observe_cases` gives what an output needs, `observe_held` and `observe_run` that it suffices. -/
theorem observationReadsActiveRegisters : Obligations.ObservationReadsActiveRegisters := by
  intro ref t
  refine ⟨⟨fun held => ?_, fun ⟨c, known, reset⟩ => observe_held known reset⟩, fun f p wave => ⟨fun runs => ?_, ?_⟩⟩
  · obtain ⟨c, known, ⟨reset, _⟩ | ⟨_, _, _, _, _, _, _, other⟩⟩ := observe_cases held
    · exact ⟨c, known, reset⟩
    · cases other
  · obtain ⟨c, known, ⟨_, other⟩ | ⟨fw, pw, wave', reset, freq, phase, shape, same⟩⟩ := observe_cases runs
    · cases other
    · cases same
      exact ⟨c, fw, pw, known, reset, freq, phase, shape, rfl, rfl⟩
  · rintro ⟨c, fw, pw, known, reset, freq, phase, shape, rfl, rfl⟩
    exact observe_run known reset freq phase shape

/-- Settles O20: the second half writes its register and the latch, of which the output reads only the register, and
that only when it is selected. -/
theorem completedPairDrivesActiveOutput : Obligations.CompletedPairDrivesActiveOutput := by
  intro sel d lo s c known b28 waiting
  have ran := onFreqWord_of_b28_set (sel := sel) (d := d) known b28
  rw [Target.takeHalf_second _ _ waiting] at ran
  refine ⟨_, (exec_freq sel d s).trans ran, fun inactive => ?_, fun active pw wave running phase shape => ?_⟩
  · exact observe_congr known rfl (Slots.get_set_other _ _ _ _ inactive) rfl
  · refine observe_run known running ?_ phase shape
    rw [ctrlFselect, active]
    exact Slots.get_set_same _ _ _

/-- Settles O21: an accepted word is the new control register, whose reset bit is all that `observe_held` asks. -/
theorem resetWordHoldsOutput : Obligations.ResetWordHoldsOutput := by
  intro f s supported reset
  have bit : ctrlReset (0b00#2 ++ f) = true := (getLsbD_ctrl_fields f (by decide)).trans reset
  exact ⟨_, onCtrlWord_of_supported supported, observe_held rfl bit, Target.takeCtrl_phase _,
    fun empty => by rw [Target.takeCtrl_of_none _ empty]⟩

end Sys2Proof.Machine
end

section
/-! One step (43_framing.md §1, 60_exceptions.md, 70_reset_and_hazards.md): operations that answer at once, one
transaction, and the machine's invariant. -/

namespace Sys2Proof.Machine

/-! ### Operations that send no word -/

section
variable {s : State} {op : Operation} {ops : List Operation}

/-- An operation that answers at once returns that answer, and nothing else changes. -/
theorem step_of_reply {r : Result} (hq : s.queue = op :: ops) (due : quiet s) (hp : plan op s = .reply r) :
    step s = .next { s with results := s.results ++ [r], queue := ops, index := 0 } := by
  rw [step_of_queue hq due, stepOperation, hp]
  simp [finish, hq]

theorem whenInitialised_refused {b : Bool} {o : Option Shadow} (k : Shadow → Plan) (h : b = false ∨ o = none) :
    whenInitialised b o k = .reply .refusedBeforeInit := by
  cases b with
  | false => exact whenInitialised_false o k
  | true =>
    obtain rfl : o = none := h.resolve_left Bool.true_eq_false.mp
    rfl

/-- R169: the three framing operations are refused. -/
theorem plan_framing_refused (h : s.initialised = false ∨ s.shadow = none)
    (framing : (∃ hz, op = .setFrequency hz) ∨ (∃ deg, op = .setPhase deg) ∨ (∃ wave, op = .setWaveform wave)) :
    plan op s = .reply .refusedBeforeInit := by
  obtain ⟨hz, rfl⟩ | ⟨deg, rfl⟩ | ⟨wave, rfl⟩ := framing
  all_goals exact whenInitialised_refused _ h
end

/-- Settles O29: the plan is the refusal, and `step_of_reply` returns it. -/
theorem callBeforeInitRefused : Obligations.CallBeforeInitRefused := fun _ _ _ hq due missing framing =>
  step_of_reply hq due (plan_framing_refused missing framing)

/-- Settles O30: by the three operations that encode a frequency, whose plan is `enc_freq`'s error. -/
theorem invalidParameterBeforeAnyWord : Obligations.InvalidParameterBeforeAnyWord := by
  intro s op ops hz hq due out call
  have invalid := not_freqValid_of_out_of_range out
  refine ⟨step_of_reply hq due ?_, rfl⟩
  obtain ⟨sel, rfl⟩ | ⟨rfl, ready, known⟩ | ⟨p, w, rfl⟩ := call
  · rw [plan, encFreq_of_invalid sel invalid, whenEncoded]
  · obtain ⟨S, hS⟩ := Option.ne_none_iff_exists'.mp known
    rw [plan, ready, hS, whenInitialised_true, planSetFrequency, encFreq_of_invalid _ invalid, whenEncoded]
  · rw [plan, planInit, encFreq_of_invalid _ invalid, whenEncoded]

/-- Settles O31: by the three codec operations, whose plan is to answer their words. -/
theorem codecOperationsPure : Obligations.CodecOperationsPure := by
  intro s op ops ws hq due call
  refine step_of_reply hq due ?_
  obtain ⟨hz, sel, rfl, encoded⟩ | ⟨deg, sel, rfl, rfl⟩ | ⟨wave, f, p, r, rfl, rfl⟩ := call
  · rw [plan, encoded, whenEncoded]
  · rfl
  · rfl

/-- Settles O28: `powerCycle` field by field; the image after power-on has no control register to observe. -/
theorem powerCycleKeepsOnlyTheOutside : Obligations.PowerCycleKeepsOnlyTheOutside := by
  intro s env due
  refine ⟨_, step_of_powerCycle due, rfl, powerCycle_params _, powerCycle_env _, powerCycle_draws _,
    powerCycle_results _, powerCycle_bus _, powerCycle_index _, fun start => ?_, fun inside => ?_⟩
  · rw [powerCycle_queue, dropRunning_queue, if_pos start]
  · rw [powerCycle_queue, dropRunning_queue, if_neg inside]

/-! ### One transaction -/

section
variable {s : State} {op : Operation} {ops : List Operation} {ws rest : List Word} {after : Option Shadow} {w : Word}

/-- The step of an operation with a next word is that word's transaction. -/
theorem step_of_word (hq : s.queue = op :: ops) (hp : plan op s = .emit ws after) (hd : ws.drop s.index = w :: rest)
    (due : quiet s) : step s = sendWord op w rest after s := by
  rw [step_of_queue hq due, stepOperation, hp]
  simp only [hd]

/-- The transaction when the environment's next answer is `a`. -/
theorem step_of_answer {a : Answer} {env : List EnvEvent} (hq : s.queue = op :: ops) (hp : plan op s = .emit ws after)
    (hd : ws.drop s.index = w :: rest) (he : s.env = .answer a :: env) :
    step s = onNext (afterAnswer op a rest after)
      (transfer w a { s with env := env, bus := s.bus ++ [.toTarget w a] }) := by
  rw [step_of_word hq hp hd (.inr ⟨a, env, he⟩), sendWord, takeAnswer_of_env he]
  rfl
end

/-- Settles O24: `step_of_answer` with the answer `ok`, whose transfer is `exec` of the decoded word. -/
theorem stepRunsDecodedWord : Obligations.StepRunsDecodedWord := by
  intro s op ops ws rest after w env i hq hp hd he decoded
  obtain rfl : decodeWord w = i := Except.ok.inj ((decodeBits_serialise w).symm.trans decoded)
  rw [step_of_answer hq hp hd he, transfer, deliver_eq_exec]
  refine onNext_congr fun t ran => ?_
  obtain ⟨T, rfl⟩ := exec_target_only ran
  by_cases last : rest = []
  · simp only [afterAnswer, advance, if_pos last, complete, finish, hq, List.tail_cons]
    cases op <;> rfl
  · simp only [afterAnswer, advance, if_neg last]

/-! `failed_delivery` by its three branches (R161). -/

theorem failedDelivery_corrupting {c : Delivery} {w : Word} {s : State} (h : s.params.corruptOnFailure = true) :
    failedDelivery c w s = .next { s with target := .powerOn } := if_pos h

theorem failedDelivery_lost {w : Word} {s : State} (h : s.params.corruptOnFailure = false) :
    failedDelivery .lost w s = .next s := if_neg (by simp [h])

theorem failedDelivery_delivered {w : Word} {s : State} (h : s.params.corruptOnFailure = false) :
    failedDelivery .delivered w s = exec (decodeWord w) s :=
  (if_neg (by simp [h])).trans (deliver_eq_exec w s)

/-- Settles O25: `step_of_answer` with the answer `fail`; the branches are `failed_delivery`'s (R161). -/
theorem failedWordRaisesTransportFailure : Obligations.FailedWordRaisesTransportFailure := by
  intro s op ops ws rest after w env c hq hp hd he sent failed
  have ended (T : Target) :
      afterAnswer op (.fail c) rest after { sent with target := T } = { failed with target := T } := by
    simp only [sent, failed, afterAnswer, failWord, raiseError, finish, hq, List.tail_cons]
    cases op <;> rfl
  have sending : step s = onNext (afterAnswer op (.fail c) rest after) (failedDelivery c w sent) :=
    step_of_answer hq hp hd he
  refine ⟨fun corrupt => ?_, fun intact lost => ?_, fun intact delivered => ⟨fun T ran => ?_, fun r refused => ?_⟩⟩
  · rw [sending, failedDelivery_corrupting (by exact corrupt), onNext_next]
    exact congrArg _ (ended .powerOn)
  · rw [sending, lost, failedDelivery_lost (by exact intact), onNext_next, ← lost]
    exact congrArg _ (ended s.target)
  · rw [sending, delivered, failedDelivery_delivered (by exact intact), ran, onNext_next, ← delivered]
    exact congrArg _ (ended T)
  · rw [sending, delivered, failedDelivery_delivered (by exact intact), refused, onNext_refused]

/-- Settles O26: both steps are the transaction under the drawn answer. -/
theorem answerBeyondListIsFree : Obligations.AnswerBeyondListIsFree := by
  intro s op ops ws rest after w hq hp hd he
  rw [step_of_word hq hp hd (.inl he), sendWord, takeAnswer_of_empty he,
    step_of_answer (s := { s with env := [.answer (Config.transportAnswer s.draws)], draws := s.draws + 1 }) hq
      (plan_congr op rfl rfl rfl ▸ hp) hd rfl]
  simp only [record, he]

/-! ### Everything one step can do -/

/-- What a transaction of `w`, answered `a`, can leave as the target's image. -/
inductive Reaches (w : Word) (s : State) : Answer → Target → Prop
  | executed {a : Answer} {T : Target} (ran : exec (decodeWord w) s = .next { s with target := T }) : Reaches w s a T
  | lost : Reaches w s (.fail .lost) s.target
  | corrupted {c : Delivery} (lossy : s.params.corruptOnFailure = true) : Reaches w s (.fail c) .powerOn

/-- A word sent and answered, inverted: what reached the target, and the block's own progress. -/
theorem sendWord_reaches {op : Operation} {w : Word} {rest : List Word} {after : Option Shadow} {s t : State}
    (h : sendWord op w rest after s = .next t) : ∃ a env n T, Reaches w s a T ∧
      t = afterAnswer op a rest after { sentState s env w a T with draws := n } := by
  obtain ⟨T, sent, rfl⟩ := sendWord_cases h
  have state : { record (.toTarget w (takeAnswer s).1) (takeAnswer s).2 with target := T } =
      { sentState s (takeAnswer s).2.env w (takeAnswer s).1 T with draws := (takeAnswer s).2.draws } := by
    simp [record]
  refine ⟨(takeAnswer s).1, (takeAnswer s).2.env, (takeAnswer s).2.draws, T, ?_, by rw [state]⟩
  obtain ran | ⟨same, lost⟩ | ⟨unknown, lossy, c, failed⟩ := transfer_cases sent
  · exact .executed
      (exec_congr (s' := record (.toTarget w (takeAnswer s).1) (takeAnswer s).2) (takeAnswer_target s) ran)
  · obtain rfl : T = s.target := by simpa using congrArg State.target same
    rw [lost]
    exact .lost
  · obtain rfl : T = .powerOn := congrArg State.target unknown
    rw [failed]
    exact .corrupted (by simpa using lossy)

/-- The steps the machine can take from `s`, each with the state it leads to. -/
inductive StepKind (s : State) : State → Prop
  | foreign {bits : List Bool} {env : List EnvEvent} (due : s.env = .foreign bits :: env) :
      StepKind s (foreignTransaction bits { s with env := env })
  | powerCycle {env : List EnvEvent} (due : s.env = .powerCycle :: env) :
      StepKind s (powerCycle { s with env := env })
  | idle : StepKind s s
  | reply {r : Result} : StepKind s (finish r s)
  | restart : StepKind s { s with index := 0 }
  | next {op : Operation} {ops : List Operation} {ws rest : List Word} {after : Option Shadow} {w w' : Word}
      {env : List EnvEvent} {n : Nat} {T : Target} (queue : s.queue = op :: ops) (plan : plan op s = .emit ws after)
      (words : ws.drop s.index = w :: w' :: rest) (reached : Reaches w s .ok T) :
      StepKind s { sentState s env w .ok T with draws := n, index := s.index + 1 }
  | last {op : Operation} {ops : List Operation} {ws : List Word} {after : Option Shadow} {w : Word}
      {env : List EnvEvent} {n : Nat} {T : Target} (queue : s.queue = op :: ops) (plan : plan op s = .emit ws after)
      (words : ws.drop s.index = [w]) (reached : Reaches w s .ok T) :
      StepKind s (complete after (initialisedAfter op true s.initialised) { sentState s env w .ok T with draws := n })
  | failed {op : Operation} {ops : List Operation} {ws rest : List Word} {after : Option Shadow} {w : Word}
      {env : List EnvEvent} {n : Nat} {T : Target} {c : Delivery} (queue : s.queue = op :: ops)
      (plan : plan op s = .emit ws after) (words : ws.drop s.index = w :: rest) (reached : Reaches w s (.fail c) T) :
      StepKind s
        (failWord (initialisedAfter op false s.initialised) { sentState s env w (.fail c) T with draws := n })

/-- Every step that answers a next state is one of these kinds. -/
theorem step_kind {s t : State} (h : step s = .next t) : StepKind s t := by
  obtain ⟨bits, env, due, rfl⟩ | ⟨env, due, rfl⟩ | ⟨_, rfl⟩ | ⟨op, ops, queue, _, _, stepped⟩ := step_cases h
  · exact .foreign due
  · exact .powerCycle due
  · exact .idle
  obtain ⟨r, _, rfl⟩ | ⟨ws, after, _, _, rfl⟩ | ⟨ws, after, w, rest, plan, words, sent⟩ :=
    stepOperation_cases stepped
  · exact .reply
  · exact .restart
  obtain ⟨a, env, n, T, reached, rfl⟩ := sendWord_reaches sent
  cases a with
  | fail c => exact .failed queue plan words reached
  | ok =>
    cases rest with
    | nil => exact .last queue plan words reached
    | cons w' rest => exact .next queue plan words reached

/-! ### The invariant -/

/-- What `Inv` says of the image: no refused control word stands, and nothing is known before one has landed. -/
structure Target.Legal (T : Target) : Prop where
  ctrlSupported : ∀ w, T.ctrl = some w → reservedOrUnsupported w = false
  nothingBeforeCtrl : T.ctrl = none → T.freq = ⟨none, none⟩ ∧ T.pend = .unknown

theorem Target.legal_powerOn : Target.powerOn.Legal := ⟨nofun, fun _ => ⟨rfl, rfl⟩⟩

theorem Target.Legal.takeHalf {T : Target} (legal : T.Legal) (sel : Sel) (d : Half) (known : T.ctrl ≠ none) :
    (T.takeHalf sel d).Legal where
  ctrlSupported := by rw [takeHalf_ctrl]; exact legal.ctrlSupported
  nothingBeforeCtrl := by rw [takeHalf_ctrl]; exact fun h => absurd h known

theorem Target.Legal.takePhase {T : Target} (legal : T.Legal) (sel : Sel) (d : PhaseWord) :
    (T.takePhase sel d).Legal where
  ctrlSupported := by rw [takePhase_ctrl]; exact legal.ctrlSupported
  nothingBeforeCtrl := by
    rw [takePhase_ctrl]
    intro missing
    rw [takePhase_of_unknown _ _ (legal.nothingBeforeCtrl missing).2]
    exact ⟨rfl, rfl⟩

theorem Target.legal_takeCtrl (T : Target) {w : Word} (supported : reservedOrUnsupported w = false) :
    (T.takeCtrl w).Legal where
  ctrlSupported := fun _ same => Option.some.inj same ▸ supported
  nothingBeforeCtrl := nofun

theorem exec_keeps_legal {i : Instr} {s t : State} (legal : s.target.Legal) (ran : exec i s = .next t) :
    t.target.Legal := by
  cases i with
  | ctrl f =>
    obtain ⟨supported, rfl⟩ := onCtrlWord_cases ran
    exact s.target.legal_takeCtrl supported
  | freq0 d | freq1 d =>
    obtain ⟨c, known, _, rfl⟩ := onFreqWord_cases ran
    exact legal.takeHalf _ d (by simp [known])
  | phase0 x d | phase1 x d =>
    cases ran
    exact legal.takePhase _ d

theorem Reaches.keeps_legal {w : Word} {s : State} {a : Answer} {T : Target} (reached : Reaches w s a T)
    (legal : s.target.Legal) : T.Legal := by
  cases reached with
  | executed ran => exact exec_keeps_legal legal ran
  | lost => exact legal
  | corrupted _ => exact Target.legal_powerOn

/-- The shadow of a plan: `write16` leaves it, and the others set one whose reset bit is clear or as it was. -/
theorem plan_shadow {op : Operation} {s : State} {ws : List Word} {after : Option Shadow}
    (hp : plan op s = .emit ws after) :
    (∃ w, op = .write16 w ∧ after = s.shadow) ∨
      ∃ S', after = some S' ∧ (S'.rst = false ∨ ∃ S, s.shadow = some S ∧ S'.rst = S.rst) := by
  cases op with
  | encFreq hz sel => cases (whenEncoded_eq_emit hp).2
  | encPhase deg sel => cases hp
  | encCtrl wave fsel psel rst => cases hp
  | write16 w => cases hp; exact .inl ⟨w, rfl, rfl⟩
  | setFrequency hz =>
    obtain ⟨S, _, hS, emitted⟩ := whenInitialised_eq_emit hp
    cases (whenEncoded_eq_emit emitted).2
    exact .inr ⟨_, rfl, .inr ⟨S, hS, rfl⟩⟩
  | setPhase deg =>
    obtain ⟨S, _, hS, emitted⟩ := whenInitialised_eq_emit hp
    cases emitted
    exact .inr ⟨_, rfl, .inr ⟨S, hS, rfl⟩⟩
  | setWaveform wave =>
    obtain ⟨S, _, hS, emitted⟩ := whenInitialised_eq_emit hp
    cases emitted
    exact .inr ⟨_, rfl, .inr ⟨S, hS, rfl⟩⟩
  | init f0 p0 w0 =>
    cases (whenEncoded_eq_emit hp).2
    exact .inr ⟨_, rfl, .inl rfl⟩

/-- A failed word never makes the block initialised. -/
theorem initialised_of_initialisedAfter_false {op : Operation} {was : Bool} (h : initialisedAfter op false was = true) :
    was = true := by
  cases op with
  | init f p w => cases h
  | encFreq _ _ | encPhase _ _ | encCtrl _ _ _ _ | write16 _ | setFrequency _ | setPhase _ | setWaveform _ => exact h

theorem Inv.targetLegal {s : State} (inv : Inv s) : s.target.Legal := ⟨inv.ctrlSupported, inv.nothingBeforeCtrl⟩

/-- The shadow a finished operation leaves does not hold the reset bit. -/
theorem Inv.plan_shadowRuns {s : State} (inv : Inv s) {op : Operation} {ws : List Word} {after : Option Shadow}
    (hp : plan op s = .emit ws after) : ∀ S, after = some S → S.rst = false := by
  intro S' stands
  obtain ⟨_, _, kept⟩ | ⟨S'', same, clear | ⟨S, known, kept⟩⟩ := plan_shadow hp
  · exact inv.shadowRuns S' (kept ▸ stands)
  · exact Option.some.inj (same.symm.trans stands) ▸ clear
  · exact Option.some.inj (same.symm.trans stands) ▸ kept.trans (inv.shadowRuns S known)

/-- A finished operation that leaves the block initialised leaves it a shadow. -/
theorem Inv.plan_hasShadow {s : State} (inv : Inv s) {op : Operation} {ws : List Word} {after : Option Shadow}
    (hp : plan op s = .emit ws after) (ready : initialisedAfter op true s.initialised = true) :
    after.isSome = true := by
  obtain ⟨w, rfl, kept⟩ | ⟨S', rfl, _⟩ := plan_shadow hp
  · exact kept ▸ inv.initialisedHasShadow ready
  · rfl

/-- Where the block is in its operation depends only on what the plan reads, the queue and the index. -/
theorem indexLegal_congr {s t : State} (params : t.params = s.params) (shadow : t.shadow = s.shadow)
    (initialised : t.initialised = s.initialised) (queue : t.queue = s.queue) (index : t.index = s.index)
    (legal : indexLegal s) : indexLegal t := by
  obtain start | ⟨op, rest, ws, after, hq, hp, inside⟩ := legal
  · exact .inl (index.trans start)
  · exact .inr ⟨op, rest, ws, after, queue.trans hq, (plan_congr op params shadow initialised).trans hp,
      index ▸ inside⟩

/-- Settles O48: by the kinds of step. The image stays legal because every word that lands keeps it so, the shadow is a
plan's or as it was, and the index moves on only while words are left. -/
theorem stepKeepsInv : Obligations.StepKeepsInv := by
  intro s t inv stepped
  have legal := inv.targetLegal
  cases step_kind stepped with
  | foreign _ =>
    exact ⟨inv.clockPositive, legal.ctrlSupported, legal.nothingBeforeCtrl, inv.shadowRuns, inv.initialisedHasShadow,
      indexLegal_congr rfl rfl rfl rfl rfl inv.atWord⟩
  | powerCycle _ =>
    have image := Target.legal_powerOn
    exact ⟨by simpa using inv.clockPositive, image.ctrlSupported, image.nothingBeforeCtrl, nofun, nofun,
      .inl (powerCycle_index _)⟩
  | idle => exact inv
  | reply | restart =>
    exact ⟨inv.clockPositive, legal.ctrlSupported, legal.nothingBeforeCtrl, inv.shadowRuns, inv.initialisedHasShadow,
      .inl rfl⟩
  | @next op ops ws rest after w w' env n T queue plan words reached =>
    have image := reached.keeps_legal legal
    have more : s.index + 1 < ws.length := by
      have := congrArg List.length words
      simp only [List.length_drop, List.length_cons] at this
      omega
    exact ⟨inv.clockPositive, image.ctrlSupported, image.nothingBeforeCtrl, inv.shadowRuns, inv.initialisedHasShadow,
      .inr ⟨op, ops, ws, after, queue, (plan_congr op rfl rfl rfl).trans plan, more⟩⟩
  | last _ plan _ reached =>
    have image := reached.keeps_legal legal
    exact ⟨inv.clockPositive, image.ctrlSupported, image.nothingBeforeCtrl, inv.plan_shadowRuns plan,
      inv.plan_hasShadow plan, .inl rfl⟩
  | failed _ _ _ reached =>
    have image := reached.keeps_legal legal
    exact ⟨inv.clockPositive, image.ctrlSupported, image.nothingBeforeCtrl, inv.shadowRuns,
      fun ready => inv.initialisedHasShadow (initialised_of_initialisedAfter_false ready), .inl rfl⟩

theorem refClkHz_pos : 0 < Config.refClkHz := by
  rw [Config.refClkHz]
  positivity

/-- Settles O47: the clock is positive by its form, and of the rest reset knows nothing. -/
theorem resetMeetsInv : Obligations.ResetMeetsInv where
  clockPositive := refClkHz_pos
  ctrlSupported := Target.legal_powerOn.ctrlSupported
  nothingBeforeCtrl := Target.legal_powerOn.nothingBeforeCtrl
  shadowRuns := nofun
  initialisedHasShadow := nofun
  atWord := .inl rfl

/-! ### When the shadow, `initialised` and the target change -/

/-- Settles O44: by the kinds of step, of which only a power cycle and a last word touch the shadow; `write16` puts it
back. -/
theorem shadowWrittenOnlyOnSuccess : Obligations.ShadowWrittenOnlyOnSuccess := by
  intro s t stepped changed
  cases step_kind stepped with
  | foreign _ | idle | reply | restart | next _ _ _ _ | failed _ _ _ _ => exact absurd rfl changed
  | powerCycle due => exact .inl ⟨_, due, rfl⟩
  | @last op ops ws after w env n T queue plan words _ =>
    refine .inr ⟨op, ops, ws, after, w, queue, ?_, plan, words, rfl, rfl, rfl⟩
    rintro x rfl
    cases plan
    exact changed rfl

/-- Only `init` changes `initialised`, whether its words are transported or one fails. -/
theorem exists_init_of_initialisedAfter_ne {op : Operation} {ok was : Bool} (h : initialisedAfter op ok was ≠ was) :
    ∃ f p w, op = .init f p w := by
  by_contra other
  push Not at other
  exact h (initialisedAfter_of_not_init other)

/-- Settles O50: by the kinds of step, of which only a power cycle, a last word and a failed word touch `initialised`,
the words those of `init`. -/
theorem initialisedOnlyByInit : Obligations.InitialisedOnlyByInit := by
  intro s t stepped changed
  cases step_kind stepped with
  | foreign _ | idle | reply | restart | next _ _ _ _ => exact absurd rfl changed
  | powerCycle due => exact .inl ⟨_, due, rfl⟩
  | last queue plan words _ =>
    obtain ⟨f, p, w0, rfl⟩ := exists_init_of_initialisedAfter_ne changed
    exact .inr ⟨f, p, w0, _, _, _, _, _, queue, plan, words, .inl ⟨rfl, rfl, rfl, rfl, rfl⟩⟩
  | failed queue plan words _ =>
    obtain ⟨f, p, w0, rfl⟩ := exists_init_of_initialisedAfter_ne changed
    exact .inr ⟨f, p, w0, _, _, _, _, _, queue, plan, words, .inr ⟨_, rfl, rfl, rfl, rfl⟩⟩

theorem Reaches.executed_of_ok {w : Word} {s : State} {T : Target} (reached : Reaches w s .ok T) :
    ∃ u, exec (decodeWord w) s = .next u ∧ T = u.target := by
  cases reached with
  | executed ran => exact ⟨_, ran, rfl⟩

theorem Reaches.cases_of_fail {w : Word} {s : State} {c : Delivery} {T : Target} (reached : Reaches w s (.fail c) T) :
    T = s.target ∨ (s.params.corruptOnFailure = true ∧ T = .powerOn) ∨
      ∃ u, exec (decodeWord w) s = .next u ∧ T = u.target := by
  cases reached with
  | executed ran => exact .inr (.inr ⟨_, ran, rfl⟩)
  | lost => exact .inl rfl
  | corrupted lossy => exact .inr (.inl ⟨lossy, rfl⟩)

/-- Settles O45: by the kinds of step; the three that send a word leave what `Reaches` says. -/
theorem targetFollowsTheBus : Obligations.TargetFollowsTheBus := by
  intro s t stepped
  cases step_kind stepped with
  | foreign _ => exact .inr (.inl ⟨_, rfl, rfl⟩)
  | powerCycle due => exact .inl ⟨powerCycle_bus _, .inr ⟨_, due⟩⟩
  | idle | reply | restart => exact .inl ⟨rfl, .inl rfl⟩
  | next _ _ _ reached => exact .inr (.inr ⟨_, .ok, rfl, fun _ => reached.executed_of_ok, nofun⟩)
  | last _ _ _ reached => exact .inr (.inr ⟨_, .ok, rfl, fun _ => reached.executed_of_ok, nofun⟩)
  | @failed _ _ _ _ _ _ _ _ _ c _ _ _ reached =>
    exact .inr (.inr ⟨_, .fail c, rfl, nofun, fun _ _ => ⟨rfl, rfl, reached.cases_of_fail⟩⟩)

/-! ### The words the block emits -/

/-- An instruction whose word the block may send: a permitted encoding, run in every state if it is a control word, with
bit 12 clear if it is a phase word. -/
def Sendable (i : Instr) : Prop :=
  i.wellFormed = true ∧
    match i with
    | .ctrl f => ∀ u : State, ∃ t, exec (.ctrl f) u = .next t
    | .freq0 _ => True
    | .freq1 _ => True
    | .phase0 x _ => x = false
    | .phase1 x _ => x = false

theorem sendable_ctrlWord (w : Waveform) (f p r : Bool) : Sendable (decodeWord (ctrlWord w f p r)) := by
  rw [decodeWord_ctrlWord]
  refine ⟨by cases w <;> cases f <;> cases p <;> cases r <;> rfl, fun u => ?_⟩
  have runs := onCtrlWord_of_supported (s := u) (reservedOrUnsupported_ctrlWord w f p r)
  rw [exec_ctrl, ctrlWord_tagged]
  exact ⟨_, runs⟩

theorem sendable_freq (s : Sel) (d : Half) : Sendable (decodeWord (freqTag s ++ d)) := by
  rw [decodeWord_freq]
  cases s <;> exact ⟨rfl, trivial⟩

theorem sendable_phase (s : Sel) (d : PhaseWord) : Sendable (decodeWord (phaseTag s ++ 0#1 ++ d)) := by
  rw [show (0#1 : BitVec 1) = BitVec.ofBool false from rfl, decodeWord_phase]
  cases s <;> exact ⟨rfl, rfl⟩

/-- By the operations: their words are `enc_ctrl`'s, F words and `enc_phase`'s. -/
theorem plan_sendable {op : Operation} {s : State} {ws : List Word} {after : Option Shadow}
    (notRaw : ∀ w, op ≠ .write16 w) (hp : plan op s = .emit ws after) : ∀ w ∈ ws, Sendable (decodeWord w) := by
  cases op with
  | encFreq hz sel => cases (whenEncoded_eq_emit hp).2
  | encPhase deg sel => cases hp
  | encCtrl wave fsel psel rst => cases hp
  | write16 w => exact absurd rfl (notRaw w)
  | setFrequency hz =>
    obtain ⟨S, _, _, emitted⟩ := whenInitialised_eq_emit hp
    cases (whenEncoded_eq_emit emitted).2
    simp [encCtrl, sendable_freq, sendable_ctrlWord]
  | setPhase deg =>
    obtain ⟨S, _, _, emitted⟩ := whenInitialised_eq_emit hp
    cases emitted
    simp [encPhase, encCtrl, sendable_phase, sendable_ctrlWord]
  | setWaveform wave =>
    obtain ⟨S, _, _, emitted⟩ := whenInitialised_eq_emit hp
    cases emitted
    simp [encCtrl, sendable_ctrlWord]
  | init f0 p0 w0 =>
    cases (whenEncoded_eq_emit hp).2
    simp [encPhase, encCtrl, sendable_freq, sendable_phase, sendable_ctrlWord]

/-- Settles O46: `plan_sendable`, whose predicate is the statement's. -/
theorem blockWordsAreAccepted : Obligations.BlockWordsAreAccepted := fun _ _ _ _ notRaw hp => plan_sendable notRaw hp

end Sys2Proof.Machine
end

section
/-! The words of an operation, one after the other (43_framing.md R161): what they leave of the target, and the run that
carries them, to its end or to the first failure. -/

namespace Sys2Proof.Machine

open Host

/-! ### Words that land -/

/-- Delivered to a target with the image `T`, the word `w` runs and leaves `U`. -/
def Lands (w : Word) (T U : Target) : Prop :=
  ∀ u : State, u.target = T → deliver w u = .next { u with target := U }

theorem lands_ctrlWord (w : Waveform) (f p r : Bool) (T : Target) :
    Lands (ctrlWord w f p r) T (T.takeCtrl (ctrlWord w f p r)) := fun u h => effect_ctrlWord w f p r u T h

theorem lands_phase (sel : Sel) (d : PhaseWord) (T : Target) :
    Lands (phaseTag sel ++ 0#1 ++ d) T (T.takePhase sel d) := fun u h => effect_phase sel d u T h

/-- An F word lands under a control word of the block. -/
theorem lands_freq {w : Waveform} {f p r : Bool} (sel : Sel) (d : Half) {T : Target}
    (known : T.ctrl = some (ctrlWord w f p r)) : Lands (freqTag sel ++ d) T (T.takeHalf sel d) :=
  fun u h => effect_freq sel d u T known h

/-- `ws`, delivered in order, take the image `T` to `U`. -/
inductive LandAll : List Word → Target → Target → Prop
  | nil {T : Target} : LandAll [] T T
  | cons {w : Word} {ws : List Word} {T U V : Target} (first : Lands w T U) (rest : LandAll ws U V) :
      LandAll (w :: ws) T V

theorem landAll_append {ws ws' : List Word} {T V : Target} :
    LandAll (ws ++ ws') T V ↔ ∃ U, LandAll ws T U ∧ LandAll ws' U V := by
  induction ws generalizing T with
  | nil => exact ⟨fun h => ⟨T, .nil, h⟩, fun ⟨_, .nil, h⟩ => h⟩
  | cons w ws ih =>
    constructor
    · rintro (_ | ⟨first, rest⟩)
      obtain ⟨U, before, behind⟩ := ih.mp rest
      exact ⟨U, .cons first before, behind⟩
    · rintro ⟨U, _ | ⟨first, before⟩, behind⟩
      exact .cons first (ih.mpr ⟨U, before, behind⟩)

/-- The words of a chain that landed, up to the `i`-th. -/
theorem LandAll.upTo {ws : List Word} {T V : Target} (all : LandAll ws T V) {i : Nat} {w : Word}
    (at_i : ws[i]? = some w) : ws.drop i = w :: ws.drop (i + 1) ∧
      ∃ U U', LandAll (ws.take i) T U ∧ Lands w U U' := by
  obtain ⟨inside, rfl⟩ := List.getElem?_eq_some_iff.mp at_i
  have split := List.drop_eq_getElem_cons inside
  rw [← List.take_append_drop i ws, landAll_append, split] at all
  obtain ⟨U, before, _ | ⟨lands, _⟩⟩ := all
  exact ⟨split, U, _, before, lands⟩

/-! ### Runs -/

/-- Of many answers `ok` some come first and the others after. -/
theorem answers_replicate_split {k n : Nat} (h : k ≤ n) : answers (List.replicate n .ok) =
    answers (List.replicate k .ok) ++ answers (List.replicate (n - k) .ok) := by
  rw [answers, answers, answers, ← List.map_append, List.replicate_append_replicate, Nat.add_sub_cancel' h]

/-- A run that reached a state goes on from there. -/
theorem run_add {m n : Nat} {s t : State} (h : Core.run Sys2Proof.core m s = .next t) :
    Core.run Sys2Proof.core (m + n) s = Core.run Sys2Proof.core n t := by
  induction m generalizing s with
  | zero => cases h; rw [Nat.zero_add]
  | succ m ih =>
    cases stepped : step s with
    | next u =>
      rw [run_succ stepped] at h
      rw [Nat.add_right_comm, run_succ stepped, ih h]
    | fault r => cases r
    | refused r =>
      have refused : Sys2Proof.core.step s = .refused r := stepped
      simp only [Core.run, refused] at h
      cases h

section
variable {s : State} {op : Operation} {ops : List Operation} {ws : List Word} {after : Option Shadow}
  {env : List EnvEvent}

/-- The block inside an operation, the words `done` transported. -/
abbrev wordsSent (s : State) (env : List EnvEvent) (done : List Word) (T : Target) : State :=
  { s with
    env := env
    bus := s.bus ++ done.map (Transaction.toTarget · .ok)
    target := T
    index := s.index + done.length }

/-- Words answered `ok` go out one a step while others follow. -/
theorem run_words {done rest : List Word} {T : Target} (hq : s.queue = op :: ops) (hp : plan op s = .emit ws after)
    (hd : ws.drop s.index = done ++ rest) (more : rest ≠ [])
    (he : s.env = answers (List.replicate done.length .ok) ++ env) (sent : LandAll done s.target T) :
    Core.run Sys2Proof.core done.length s = .next (wordsSent s env done T) := by
  induction done generalizing s with
  | nil =>
    cases sent
    obtain rfl : s.env = env := he
    simp [wordsSent]
  | cons w done ih =>
    obtain _ | ⟨first, sent⟩ := sent
    obtain ⟨w', rest', following⟩ := List.exists_cons_of_ne_nil (List.append_ne_nil_of_right_ne_nil done more)
    have stepped := step_ok_of_more hq hp (by rw [hd, ← following]; rfl) he first
    have left : ws.drop (s.index + 1) = done ++ rest := by
      rw [← List.tail_drop, hd]
      rfl
    rw [List.length_cons, run_succ stepped]
    have ran := ih (s := { sentState s _ w .ok _ with index := s.index + 1 }) hq
      ((plan_congr op rfl rfl rfl).trans hp) left rfl sent
    refine ran.trans ?_
    simp [wordsSent, Nat.add_assoc, Nat.add_comm 1]

/-- The block after an operation whose words were all transported. -/
abbrev completed (s : State) (op : Operation) (ops : List Operation) (env : List EnvEvent) (ws : List Word)
    (after : Option Shadow) (T : Target) : State :=
  { s with
    shadow := after
    initialised := initialisedAfter op true s.initialised
    target := T
    queue := ops
    index := 0
    env := env
    results := s.results ++ [.ok]
    bus := s.bus ++ ws.map (Transaction.toTarget · .ok) }

/-- An operation whose words are all answered `ok`. -/
theorem run_completed {T : Target} (start : s.index = 0) (hq : s.queue = op :: ops) (hp : plan op s = .emit ws after)
    (he : s.env = answers (List.replicate ws.length .ok) ++ env) (sent : LandAll ws s.target T) :
    Core.run Sys2Proof.core ws.length s = .next (completed s op ops env ws after T) := by
  obtain rfl | ⟨done, w, rfl⟩ := List.eq_nil_or_concat' ws
  · exact absurd (plan_length hp).1 (by decide)
  obtain ⟨U, before, _ | ⟨last, _ | _⟩⟩ := landAll_append.mp sent
  have answered : s.env = answers (List.replicate done.length .ok) ++ (.answer .ok :: env) := by
    simp [he, answers, List.replicate_succ']
  have reached := run_words hq hp (by rw [start]; rfl) (List.cons_ne_nil w []) answered before
  have stepped := step_ok (s := wordsSent s (.answer .ok :: env) done U) hq ((plan_congr op rfl rfl rfl).trans hp)
    (rest := []) (by simp [start]) rfl last
  rw [List.length_append, run_add reached, List.length_singleton, run_succ stepped, run_zero]
  simp [advance, complete, finish, completed, hq]

/-- What a failed transaction leaves of an image that the word would have taken from `T` to `U` (R161). -/
def failedImage (corrupt : Bool) (c : Delivery) (T U : Target) : Target :=
  if corrupt then .powerOn else
    match c with
    | .delivered => U
    | .lost => T

/-- A word answered `fail`, whichever way it fails. -/
theorem step_failed {w : Word} {rest : List Word} {c : Delivery} {U : Target} (hq : s.queue = op :: ops)
    (hp : plan op s = .emit ws after) (hd : ws.drop s.index = w :: rest) (he : s.env = .answer (.fail c) :: env)
    (lands : Lands w s.target U) :
    step s = .next (failWord (initialisedAfter op false s.initialised)
      (sentState s env w (.fail c) (failedImage s.params.corruptOnFailure c s.target U))) := by
  cases lossy : s.params.corruptOnFailure with
  | true => exact step_fail_corrupt hq hp hd he lossy
  | false =>
    cases c with
    | delivered => exact step_fail_delivered hq hp hd he lossy lands
    | lost => exact step_fail_lost hq hp hd he lossy

/-- The block after an operation that stopped at its word `w`, the words `done` before it transported. -/
abbrev stopped (s : State) (op : Operation) (ops : List Operation) (env : List EnvEvent) (done : List Word) (w : Word)
    (c : Delivery) (T : Target) : State :=
  { s with
    initialised := initialisedAfter op false s.initialised
    target := T
    queue := ops
    index := 0
    env := env
    results := s.results ++ [.error (.transportFailure done.length)]
    bus := s.bus ++ done.map (Transaction.toTarget · .ok) ++ [.toTarget w (.fail c)] }

/-- An operation whose word after `done` is the first to fail: the state before that word, and the end. -/
theorem run_stopped {done rest : List Word} {w : Word} {c : Delivery} {T U : Target} (start : s.index = 0)
    (hq : s.queue = op :: ops) (hp : plan op s = .emit (done ++ w :: rest) after)
    (he : s.env = answers (List.replicate done.length .ok ++ [.fail c]) ++ env)
    (before : LandAll done s.target T) (lands : Lands w T U) :
    Core.run Sys2Proof.core done.length s = .next (wordsSent s (.answer (.fail c) :: env) done T) ∧
    Core.run Sys2Proof.core (done.length + 1) s =
      .next (stopped s op ops env done w c (failedImage s.params.corruptOnFailure c T U)) := by
  have answered : s.env = answers (List.replicate done.length .ok) ++ (.answer (.fail c) :: env) := by
    simp [he, answers]
  have reached := run_words hq hp (by rw [start]; rfl) (List.cons_ne_nil w rest) answered before
  have stepped := step_failed (s := wordsSent s (.answer (.fail c) :: env) done T) hq
    ((plan_congr op rfl rfl rfl).trans hp) (rest := rest) (by simp [start]) rfl lands
  refine ⟨reached, ?_⟩
  rw [run_add reached, run_succ stepped, run_zero]
  simp [failWord, raiseError, finish, stopped, hq, start]
end

end Sys2Proof.Machine
end

section
/-! Whole operations (43_framing.md §2, 70_reset_and_hazards.md §2): `init`, the framing operations, agreement of shadow
and target, and failures. -/

namespace Sys2Proof.Machine

open Host

/-! ### What the words of each operation leave of the image -/

/-- The two halves of `set_frequency`, for the register the shadow does not select. -/
def Target.takePair (T : Target) (S : Shadow) (fw : FreqWord) : Target :=
  (T.takeHalf (!S.fsel) (loHalf fw)).takeHalf (!S.fsel) (hiHalf fw)

/-- With no half pending the pair is the register's new value. -/
theorem Target.takePair_of_none {T : Target} (S : Shadow) (fw : FreqWord) (h : T.pend = .none) :
    T.takePair S fw = { T with freq := T.freq.set (!S.fsel) (some fw), pend := .none } := by
  rw [takePair, takeHalf_first _ _ h, takeHalf_second _ _ rfl, joinHalves_hiHalf_loHalf]

/-- With this register's half already pending the first word completes that pair and the second waits. -/
theorem Target.takePair_of_half {T : Target} (S : Shadow) (fw : FreqWord) {lo : Half}
    (h : T.pend = .half (!S.fsel) lo) : (T.takePair S fw).pend = .half (!S.fsel) (hiHalf fw) := by
  rw [takePair, takeHalf_second _ _ h, takeHalf_first _ _ rfl]

section
variable {w : Waveform} {f p r : Bool} {T : Target} (S : Shadow)

theorem landAll_pair (fw : FreqWord) (known : T.ctrl = some (ctrlWord w f p r)) :
    LandAll [freqTag (!S.fsel) ++ loHalf fw, freqTag (!S.fsel) ++ hiHalf fw] T (T.takePair S fw) :=
  .cons (lands_freq _ _ known) (.cons (lands_freq _ _ ((Target.takeHalf_ctrl _ _).trans known)) .nil)

theorem landAll_setFrequency (fw : FreqWord) (known : T.ctrl = some (ctrlWord w f p r)) :
    LandAll [freqTag (!S.fsel) ++ loHalf fw, freqTag (!S.fsel) ++ hiHalf fw, ctrlWord S.wave (!S.fsel) S.psel S.rst] T
      ((T.takePair S fw).takeCtrl (ctrlWord S.wave (!S.fsel) S.psel S.rst)) :=
  landAll_append.mpr ⟨_, landAll_pair S fw known, .cons (lands_ctrlWord _ _ _ _ _) .nil⟩

theorem landAll_setPhase (d : PhaseWord) :
    LandAll [phaseTag (!S.psel) ++ 0#1 ++ d, ctrlWord S.wave S.fsel (!S.psel) S.rst] T
      ((T.takePhase (!S.psel) d).takeCtrl (ctrlWord S.wave S.fsel (!S.psel) S.rst)) :=
  .cons (lands_phase _ _ _) (.cons (lands_ctrlWord _ _ _ _ _) .nil)
end

/-- The words of `init` between its two control words. -/
def initData (fw : FreqWord) (pw : PhaseWord) : List Word :=
  [freqTag false ++ loHalf fw, freqTag false ++ hiHalf fw, phaseTag false ++ 0#1 ++ pw]

/-- The words of `init` (R221). -/
def initWords (w0 : Waveform) (fw : FreqWord) (pw : PhaseWord) : List Word :=
  ctrlWord w0 false false true :: initData fw pw ++ [ctrlWord w0 false false false]

theorem landAll_initData {w : Waveform} {f p r : Bool} {T : Target} (fw : FreqWord) (pw : PhaseWord)
    (known : T.ctrl = some (ctrlWord w f p r)) : LandAll (initData fw pw) T
      (((T.takeHalf false (loHalf fw)).takeHalf false (hiHalf fw)).takePhase false pw) :=
  .cons (lands_freq _ _ known) <| .cons (lands_freq _ _ ((Target.takeHalf_ctrl _ _).trans known)) <|
    .cons (lands_phase _ _ _) .nil

/-- None of them is a control word. -/
theorem initData_not_ctrl (fw : FreqWord) (pw : PhaseWord) : ∀ w ∈ initData fw pw, ∀ f, decodeWord w ≠ .ctrl f := by
  have phase : decodeWord (phaseTag false ++ 0#1 ++ pw) = .phase0 false pw := decodeWord_phase false false pw
  simp [initData, decodeWord_freq, phase]

/-- The image `init` leaves: what a pair broken by its first word leaves of FREQ1, PHASE1 as it was. -/
def Target.takeInit (T : Target) (w0 : Waveform) (fw : FreqWord) (pw : PhaseWord) : Target where
  freq := T.breakPair.freq.set false (some fw)
  phase := T.phase.set false (some pw)
  ctrl := some (ctrlWord w0 false false false)
  pend := .none

/-- The words of `init` land on any image. -/
theorem landAll_init (w0 : Waveform) (fw : FreqWord) (pw : PhaseWord) (T : Target) :
    LandAll (initWords w0 fw pw) T (T.takeInit w0 fw pw) := by
  let held := T.takeCtrl (ctrlWord w0 false false true)
  have pair : (held.takeHalf false (loHalf fw)).takeHalf false (hiHalf fw) =
      { held with freq := held.freq.set false (some fw) } := by
    rw [Target.takeHalf_first (t := held) _ _ rfl, Target.takeHalf_second _ _ rfl, joinHalves_hiHalf_loHalf]
    rfl
  have image : (((held.takeHalf false (loHalf fw)).takeHalf false (hiHalf fw)).takePhase false pw).takeCtrl
      (ctrlWord w0 false false false) = T.takeInit w0 fw pw := by
    rw [pair, Target.takePhase_of_none _ _ rfl, Target.takeCtrl_of_none _ rfl]
    simp [held, Target.takeInit]
  rw [← image]
  exact .cons (lands_ctrlWord _ _ _ _ _) <|
    landAll_append.mpr ⟨_, landAll_initData _ _ rfl, .cons (lands_ctrlWord _ _ _ _ _) .nil⟩

theorem plan_initWords {s : State} {f0 p0 : Rat} {w0 : Waveform} (valid : freqValid s.params.refClkHz f0) :
    plan (.init f0 p0 w0) s = .emit (initWords w0 (freqWordOf s.params.refClkHz f0) (phaseWordOf p0))
      (some ⟨false, false, w0, false⟩) := plan_init valid

/-! ### `init` -/

section
variable {s : State} {f0 p0 : Rat} {w0 : Waveform} {ops : List Operation} {env : List EnvEvent}

/-- FREQ1 is lost if its half was pending or the latch unknown, and only then. -/
theorem Target.takeInit_freq1 (T : Target) (fw : FreqWord) (pw : PhaseWord) :
    (T.takeInit w0 fw pw).freq.get true = match T.pend with
      | .none => T.freq.get true
      | .half s' _ => if s' then none else T.freq.get true
      | .unknown => none := by
  have other : (T.takeInit w0 fw pw).freq.get true = T.breakPair.freq.get true :=
    Slots.get_set_other _ _ _ _ Bool.true_eq_false.mp
  rw [other]
  cases latch : T.pend with
  | none => rw [breakPair_of_none latch]
  | half s' lo =>
    rw [breakPair_of_half latch]
    cases s' <;> rfl
  | unknown => rw [breakPair_of_unknown latch]; rfl

/-- After `init` the output runs at the encoded values. -/
theorem observe_takeInit (ref : Rat) (T : Target) (fw : FreqWord) (pw : PhaseWord) :
    observe ref (T.takeInit w0 fw pw) = some (.run (freqOfWord ref fw) (phaseOfWord pw) w0.shape) :=
  observe_run rfl (ctrlReset_ctrlWord _ _ _ _) (by rw [ctrlFselect_ctrlWord]; exact Slots.get_set_same _ _ _)
    (by rw [ctrlPselect_ctrlWord]; exact Slots.get_set_same _ _ _) (waveOf_ctrlWord _ _ _ _)

theorem run_init (start : s.index = 0) (valid : freqValid s.params.refClkHz f0) (hq : s.queue = .init f0 p0 w0 :: ops)
    (he : s.env = answers [.ok, .ok, .ok, .ok, .ok] ++ env) :
    Core.run Sys2Proof.core 5 s = .next (completed s (.init f0 p0 w0) ops env
      (initWords w0 (freqWordOf s.params.refClkHz f0) (phaseWordOf p0)) (some ⟨false, false, w0, false⟩)
      (s.target.takeInit w0 (freqWordOf s.params.refClkHz f0) (phaseWordOf p0))) :=
  run_completed start hq (plan_initWords valid) he (landAll_init _ _ _ _)
end

/-- Settles O32: `run_init`, the values of its words, and what `Target.takeInit` keeps of FREQ1 and PHASE1. -/
theorem initEstablishesState : Obligations.InitEstablishesState := by
  intro s f0 p0 w0 ops env hpos valid hq start he
  have joined := joinHalves_hiHalf_loHalf (freqWordOf s.params.refClkHz f0)
  rw [joinHalves] at joined
  refine ⟨_, loHalf (freqWordOf s.params.refClkHz f0), hiHalf (freqWordOf s.params.refClkHz f0), phaseWordOf p0,
    run_init start valid hq he, ?_⟩
  rw [joined]
  exact ⟨freqWordOf_toNat hpos valid, phaseWordOf_toNat p0, rfl, rfl, rfl, rfl, rfl, rfl, rfl, rfl, rfl,
    Slots.get_set_same _ _ _, Slots.get_set_same _ _ _, Target.takeInit_freq1 _ _ _,
    Slots.get_set_other _ _ _ _ Bool.true_eq_false.mp, observe_takeInit _ _ _ _⟩

/-- A word of another register leaves the control register. -/
theorem Lands.ctrl_eq {w : Word} {T U : Target} (lands : Lands w T U) (data : ∀ f, decodeWord w ≠ .ctrl f) :
    U.ctrl = T.ctrl := by
  have ran := lands { State.reset with target := T } rfl
  rw [deliver_eq_exec] at ran
  have frame := (wordFrames _ _ _ ran).2
  cases decoded : decodeWord w with
  | ctrl f => exact absurd decoded (data f)
  | freq0 d | freq1 d | phase0 x d | phase1 x d =>
    rw [decoded] at frame
    exact frame.2.1

theorem LandAll.ctrl_eq {ws : List Word} {T U : Target} (sent : LandAll ws T U)
    (data : ∀ w ∈ ws, ∀ f, decodeWord w ≠ .ctrl f) : U.ctrl = T.ctrl := by
  induction sent with
  | nil => rfl
  | cons first _ ih =>
    rw [ih fun w mem => data w (List.mem_cons_of_mem _ mem), first.ctrl_eq (data _ List.mem_cons_self)]

/-- After `i` data words of `init` its first control word still stands. -/
theorem landAll_init_held (w0 : Waveform) (fw : FreqWord) (pw : PhaseWord) (T : Target) (i : Nat) :
    ∃ U, LandAll (ctrlWord w0 false false true :: (initData fw pw).take i) T U ∧
      U.ctrl = some (ctrlWord w0 false false true) := by
  have data := landAll_initData fw pw (T.takeCtrl_ctrl (ctrlWord w0 false false true))
  rw [← List.take_append_drop i (initData fw pw), landAll_append] at data
  obtain ⟨U, before, _⟩ := data
  exact ⟨U, .cons (lands_ctrlWord _ _ _ _ _) before,
    before.ctrl_eq fun w sent => initData_not_ctrl fw pw w (List.mem_of_mem_take sent)⟩

/-- Settles O33: up to the fourth word the control register holds the first, with its reset bit; the fifth step is
`run_init`. -/
theorem outputHeldDuringInit : Obligations.OutputHeldDuringInit := by
  intro s f0 p0 w0 ops env k _ valid hq start he _ _
  by_cases last : k = 5
  · subst last
    exact ⟨_, run_init start valid hq he, ⟨_, _, observe_takeInit _ _ _ _⟩⟩
  · obtain ⟨i, rfl⟩ : ∃ i, k = i + 1 := ⟨k - 1, by omega⟩
    have inside : i ≤ 3 := by omega
    let data := initData (freqWordOf s.params.refClkHz f0) (phaseWordOf p0)
    obtain ⟨U, sent, held⟩ := landAll_init_held w0 (freqWordOf s.params.refClkHz f0) (phaseWordOf p0) s.target i
    have count : (ctrlWord w0 false false true :: data.take i).length = i + 1 := by
      rw [List.length_cons, List.length_take, min_eq_left (show i ≤ data.length from inside)]
    have split : initWords w0 (freqWordOf s.params.refClkHz f0) (phaseWordOf p0) =
        (ctrlWord w0 false false true :: data.take i) ++ (data.drop i ++ [ctrlWord w0 false false false]) := by
      rw [List.cons_append, ← List.append_assoc, List.take_append_drop]
      rfl
    have answered : s.env =
        answers (List.replicate (i + 1) .ok) ++ (answers (List.replicate (5 - (i + 1)) .ok) ++ env) := by
      rw [he, ← List.append_assoc, ← answers_replicate_split (by omega)]
      rfl
    have ran := run_words hq (plan_initWords valid) (by rw [start]; exact split) (by simp) (by rwa [count]) sent
    rw [count] at ran
    refine ⟨_, ran, ?_⟩
    rw [if_pos (by omega)]
    exact observe_held held (ctrlReset_ctrlWord _ _ _ _)

end Sys2Proof.Machine
end

section
/-! The framing operations (43_framing.md §2): what they leave when all words are transported, and the agreement of
shadow and target. -/

namespace Sys2Proof.Machine

open Host

/-- Settles O36: one word, which finds no half pending. -/
theorem setWaveformSendsOneControlWord : Obligations.SetWaveformSendsOneControlWord := by
  intro s S wave ops env agree hq start he
  have stepped := step_ok hq (plan_setWaveform agree.initialised agree.shadow) (by rw [start]; rfl) he
    (lands_ctrlWord wave S.fsel S.psel S.rst s.target)
  rw [stepped, Target.takeCtrl_of_none _ agree.pend]
  simp [advance, complete, finish, hq, start, initialisedAfter]

/-- The image `set_frequency` leaves when no half was pending. -/
theorem Target.takePair_takeCtrl_of_none {T : Target} (S : Shadow) (fw : FreqWord) (w : Word) (h : T.pend = .none) :
    (T.takePair S fw).takeCtrl w = { T with freq := T.freq.set (!S.fsel) (some fw), ctrl := some w } := by
  rw [takePair_of_none _ _ h, takeCtrl_of_none _ rfl, h]

/-- The image `set_phase` leaves when no half was pending. -/
theorem Target.takePhase_takeCtrl_of_none {T : Target} (sel : Sel) (d : PhaseWord) (w : Word) (h : T.pend = .none) :
    (T.takePhase sel d).takeCtrl w = { T with phase := T.phase.set sel (some d), ctrl := some w } := by
  have still := (takePhase_frequency_of_none sel d h).2
  rw [takeCtrl_of_none _ still, takePhase_of_none _ _ h]

/-- `set_frequency` with all words transported, on an image whose control register a word of the block set. -/
theorem run_setFrequency {s : State} {S : Shadow} {hz : Rat} {ops : List Operation} {env : List EnvEvent}
    {w : Waveform} {f p r : Bool} (start : s.index = 0) (ready : s.initialised = true) (shadow : s.shadow = some S)
    (known : s.target.ctrl = some (ctrlWord w f p r)) (valid : freqValid s.params.refClkHz hz)
    (hq : s.queue = .setFrequency hz :: ops) (he : s.env = answers [.ok, .ok, .ok] ++ env) :
    Core.run Sys2Proof.core 3 s = .next (completed s (.setFrequency hz) ops env
      [freqTag (!S.fsel) ++ loHalf (freqWordOf s.params.refClkHz hz),
        freqTag (!S.fsel) ++ hiHalf (freqWordOf s.params.refClkHz hz), ctrlWord S.wave (!S.fsel) S.psel S.rst]
      (some { S with fsel := !S.fsel })
      ((s.target.takePair S (freqWordOf s.params.refClkHz hz)).takeCtrl
        (ctrlWord S.wave (!S.fsel) S.psel S.rst))) :=
  run_completed start hq (plan_setFrequency ready shadow valid) he (landAll_setFrequency S _ known)

/-- The tag of the register that is not selected, as R163 writes it. -/
theorem freqTag_not (s : Sel) : freqTag (!s) = if s then 0b01#2 else 0b10#2 := by cases s <;> rfl

/-- The tag of the register that is not selected, as R165 writes it. -/
theorem phaseTag_not (s : Sel) : phaseTag (!s) = if s then 0b110#3 else 0b111#3 := by cases s <;> rfl

/-- Settles O34: `run_setFrequency`, the pair landing whole because no half was pending. -/
theorem setFrequencyWritesThenSwaps : Obligations.SetFrequencyWritesThenSwaps := by
  intro s S hz ops env agree hpos valid hq start he
  have joined := joinHalves_hiHalf_loHalf (freqWordOf s.params.refClkHz hz)
  rw [joinHalves] at joined
  refine ⟨_, loHalf (freqWordOf s.params.refClkHz hz), hiHalf (freqWordOf s.params.refClkHz hz),
    run_setFrequency start agree.initialised agree.shadow agree.ctrl valid hq he, ?_, ?_⟩
  · rw [joined]
    exact freqWordOf_toNat hpos valid
  · rw [joined, Target.takePair_takeCtrl_of_none _ _ _ agree.pend, freqTag_not]
    simp [completed, initialisedAfter, start]

/-- Settles O35: `run_completed` for the two words of `set_phase`, which find no half pending. -/
theorem setPhaseWritesThenSwaps : Obligations.SetPhaseWritesThenSwaps := by
  intro s S deg ops env agree hq start he
  have ran := run_completed start hq (plan_setPhase agree.initialised agree.shadow) he
    (landAll_setPhase S (phaseWordOf deg))
  refine ⟨_, phaseWordOf deg, ran, phaseWordOf_toNat deg, ?_⟩
  rw [Target.takePhase_takeCtrl_of_none _ _ _ agree.pend, phaseTag_not]
  simp [completed, initialisedAfter, start]

/-! ### Agreement -/

/-- What `Agrees` says of the image. -/
structure Target.Follows (T : Target) (S : Shadow) : Prop where
  ctrl : T.ctrl = some (ctrlWord S.wave S.fsel S.psel S.rst)
  pend : T.pend = .none
  freq : (T.freq.get S.fsel).isSome = true
  phase : (T.phase.get S.psel).isSome = true

theorem Agrees.follows {s : State} {S : Shadow} (agree : Agrees s S) : s.target.Follows S :=
  ⟨agree.ctrl, agree.pend, agree.freq, agree.phase⟩

theorem Target.Follows.agrees {s : State} {S : Shadow} (follows : s.target.Follows S) (ready : s.initialised = true)
    (shadow : s.shadow = some S) : Agrees s S :=
  ⟨ready, shadow, follows.ctrl, follows.pend, follows.freq, follows.phase⟩

theorem Target.Follows.takePair {T : Target} {S : Shadow} (follows : T.Follows S) (fw : FreqWord) :
    (T.takePair S fw).Follows S := by
  rw [takePair_of_none _ _ follows.pend]
  exact ⟨follows.ctrl, rfl, by simpa using follows.freq, follows.phase⟩

/-- The swap of `set_frequency` is followed. -/
theorem Target.Follows.setFrequency {T : Target} {S : Shadow} (follows : T.Follows S) (fw : FreqWord) :
    ((T.takePair S fw).takeCtrl (ctrlWord S.wave (!S.fsel) S.psel S.rst)).Follows { S with fsel := !S.fsel } := by
  rw [takePair_takeCtrl_of_none _ _ _ follows.pend]
  exact ⟨rfl, follows.pend, by simp, follows.phase⟩

/-- The swap of `set_phase` is followed. -/
theorem Target.Follows.setPhase {T : Target} {S : Shadow} (follows : T.Follows S) (d : PhaseWord) :
    ((T.takePhase (!S.psel) d).takeCtrl (ctrlWord S.wave S.fsel (!S.psel) S.rst)).Follows
      { S with psel := !S.psel } := by
  rw [takePhase_takeCtrl_of_none _ _ _ follows.pend]
  exact ⟨rfl, follows.pend, follows.freq, by simp⟩

theorem Target.Follows.setWaveform {T : Target} {S : Shadow} (follows : T.Follows S) (wave : Waveform) :
    (T.takeCtrl (ctrlWord wave S.fsel S.psel S.rst)).Follows { S with wave := wave } := by
  rw [takeCtrl_of_none _ follows.pend]
  exact ⟨rfl, follows.pend, follows.freq, follows.phase⟩

/-- `init` establishes what follows its shadow, on any image. -/
theorem Target.takeInit_follows (T : Target) (w0 : Waveform) (fw : FreqWord) (pw : PhaseWord) :
    (T.takeInit w0 fw pw).Follows ⟨false, false, w0, false⟩ :=
  ⟨rfl, rfl, congrArg Option.isSome (Slots.get_set_same _ _ _), congrArg Option.isSome (Slots.get_set_same _ _ _)⟩

/-- An accepted operation emits words that land, and what they leave follows the shadow it sets. -/
theorem Agrees.plan_lands {s : State} {S : Shadow} {op : Operation} (agree : Agrees s S)
    (accepted : acceptedFraming s.params.refClkHz op) :
    initialisedAfter op true s.initialised = true ∧
      ∃ ws S' T, plan op s = .emit ws (some S') ∧ LandAll ws s.target T ∧ T.Follows S' := by
  cases op with
  | encFreq _ _ | encPhase _ _ | encCtrl _ _ _ _ | write16 _ => cases accepted
  | setFrequency hz =>
    exact ⟨agree.initialised, _, _, _, plan_setFrequency agree.initialised agree.shadow accepted,
      landAll_setFrequency S _ agree.ctrl, agree.follows.setFrequency _⟩
  | setPhase deg =>
    exact ⟨agree.initialised, _, _, _, plan_setPhase agree.initialised agree.shadow, landAll_setPhase S _,
      agree.follows.setPhase _⟩
  | setWaveform wave =>
    exact ⟨agree.initialised, _, _, _, plan_setWaveform agree.initialised agree.shadow,
      .cons (lands_ctrlWord _ _ _ _ _) .nil, agree.follows.setWaveform wave⟩
  | init f0 p0 w0 =>
    exact ⟨rfl, _, _, _, plan_initWords accepted, landAll_init _ _ _ _, Target.takeInit_follows _ _ _ _⟩

/-- Agreement is kept over any number of answers `ok` that covers five words for each operation. -/
theorem agreement_over_accepted {ops : List Operation} {s : State} {S : Shadow} {m : Nat} (agree : Agrees s S)
    (start : s.index = 0) (hq : s.queue = ops) (accepted : ∀ op ∈ ops, acceptedFraming s.params.refClkHz op)
    (enough : 5 * ops.length ≤ m) (he : s.env = answers (List.replicate m .ok)) :
    ∃ (n : Nat) (t : State) (S' : Shadow), Core.run Sys2Proof.core n s = .next t ∧ Agrees t S' ∧ t.queue = [] ∧
      t.index = 0 ∧ t.results = s.results ++ List.replicate ops.length .ok := by
  induction ops generalizing s S m with
  | nil => exact ⟨0, s, S, run_zero s, agree, hq, start, (List.append_nil _).symm⟩
  | cons op ops ih =>
    obtain ⟨ready, ws, S', T, hp, sent, follows⟩ := agree.plan_lands (accepted op List.mem_cons_self)
    have short := (plan_length hp).2
    rw [List.length_cons] at enough
    have ran := run_completed start hq hp (he.trans (answers_replicate_split (by omega))) sent
    obtain ⟨n, t, S'', rest, agree', queue, index, results⟩ :=
      ih (s := completed s op ops _ ws (some S') T) (m := m - ws.length) (follows.agrees ready rfl) rfl rfl
        (fun op mem => accepted op (List.mem_cons_of_mem _ mem)) (by omega) rfl
    exact ⟨ws.length + n, t, S'', (run_add ran).trans rest, agree', queue, index, by
      rw [results, List.append_assoc]; rfl⟩

/-- Settles O38: `agreement_over_accepted` with exactly five answers for each operation. -/
theorem agreementOverFramingRuns : Obligations.AgreementOverFramingRuns := fun _ _ _ agree _ start hq accepted he =>
  agreement_over_accepted agree start hq accepted le_rfl he

/-! ### The first failure -/

/-- An operation that emits words, a raw word apart, is an accepted one. -/
theorem accepted_of_emit {s : State} {op : Operation} {ws : List Word} {after : Option Shadow}
    (notRaw : ∀ w, op ≠ .write16 w) (hp : plan op s = .emit ws after) : acceptedFraming s.params.refClkHz op := by
  cases op with
  | encFreq hz sel => cases (whenEncoded_eq_emit hp).2
  | encPhase deg sel => cases hp
  | encCtrl wave fsel psel rst => cases hp
  | write16 w => exact notRaw w rfl
  | setFrequency hz =>
    obtain ⟨S, _, _, emitted⟩ := whenInitialised_eq_emit hp
    exact (whenEncoded_eq_emit emitted).1
  | setPhase deg => trivial
  | setWaveform wave => trivial
  | init f0 p0 w0 => exact (whenEncoded_eq_emit hp).1

theorem Agrees.landAll_of_emit {s : State} {S : Shadow} {op : Operation} {ws : List Word} {after : Option Shadow}
    (agree : Agrees s S) (notRaw : ∀ w, op ≠ .write16 w) (hp : plan op s = .emit ws after) :
    ∃ T, LandAll ws s.target T := by
  obtain ⟨_, ws', S', T, hp', sent, _⟩ := agree.plan_lands (accepted_of_emit notRaw hp)
  cases hp.symm.trans hp'
  exact ⟨T, sent⟩

section
variable {s : State} {op : Operation} {ops : List Operation} {ws : List Word} {after : Option Shadow}
  {env : List EnvEvent} {i : Nat} {w : Word} {c : Delivery} {V : Target}

/-- An operation whose words would all land, stopped at its word `i`. -/
theorem run_stopped_at (start : s.index = 0) (hq : s.queue = op :: ops) (hp : plan op s = .emit ws after)
    (sent : LandAll ws s.target V) (at_i : ws[i]? = some w)
    (he : s.env = answers (List.replicate i .ok ++ [.fail c]) ++ env) :
    (ws.take i).length = i ∧ ∃ T U, Lands w T U ∧
      Core.run Sys2Proof.core i s = .next (wordsSent s (.answer (.fail c) :: env) (ws.take i) T) ∧
      Core.run Sys2Proof.core (i + 1) s =
        .next (stopped s op ops env (ws.take i) w c (failedImage s.params.corruptOnFailure c T U)) := by
  obtain ⟨split, T, U, before, lands⟩ := sent.upTo at_i
  have count : (ws.take i).length = i :=
    List.length_take_of_le (List.getElem?_eq_some_iff.mp at_i).1.le
  have whole : ws.take i ++ w :: ws.drop (i + 1) = ws := by rw [← split, List.take_append_drop]
  have runs := run_stopped start hq (by rw [hp, whole]) (by rw [count, he]) before lands
  rw [count] at runs
  exact ⟨count, T, U, lands, runs⟩
end

/-- Settles O39: `run_stopped_at`, whose image is what `Lands` and `failedImage` say. -/
theorem failureStopsTheSequence : Obligations.FailureStopsTheSequence := by
  intro s S op ops ws after i w c env agree start hq notRaw hp at_i he
  obtain ⟨V, sent⟩ := agree.landAll_of_emit notRaw hp
  obtain ⟨count, T, U, lands, before, ended⟩ := run_stopped_at start hq hp sent at_i he
  refine ⟨_, _, before, ended, rfl, rfl, rfl, ?init, initialisedAfter_of_not_init, ?results, rfl, rfl, rfl, rfl,
    ?corrupt, ?lost, ?delivered⟩
  case init => rintro ⟨f, p, w0, rfl⟩; rfl
  case results => simp only [count]
  case corrupt => intro lossy; simp only [failedImage, lossy, if_true]; rfl
  case lost => rintro intact rfl; simp [failedImage, intact]
  case delivered =>
    rintro intact rfl
    exact ⟨_, (deliver_eq_exec _ _).symm.trans (lands _ rfl), by simp [failedImage, intact]⟩

/-- Settles O49: the words of `init` land on any image, so `run_stopped_at` gives the failure; the refusal that follows
is O29. -/
theorem failedInitLeavesUninitialised : Obligations.FailedInitLeavesUninitialised := by
  intro s f0 p0 w0 ops i c env valid hq start hi he
  have inside : i < (initWords w0 (freqWordOf s.params.refClkHz f0) (phaseWordOf p0)).length := hi
  obtain ⟨count, _, _, _, _, ended⟩ := run_stopped_at start hq (plan_initWords valid) (landAll_init _ _ _ _)
    (List.getElem?_eq_getElem inside) he
  refine ⟨_, ended, rfl, rfl, ?_, rfl, rfl, rfl, fun op ops' queue due framing => ?_⟩
  · simp only [count]
  · exact callBeforeInitRefused _ op ops' queue due (.inl rfl) framing

/-- Among enough answers, the first `n` are `ok` or one of them is the first failure. -/
theorem answers_split {n : Nat} {as : List Answer} (enough : n ≤ as.length) :
    (∃ rest, as = List.replicate n .ok ++ rest) ∨
      ∃ i c rest, i < n ∧ as = List.replicate i .ok ++ .fail c :: rest := by
  induction n generalizing as with
  | zero => exact .inl ⟨as, rfl⟩
  | succ n ih =>
    cases as with
    | nil => simp at enough
    | cons a as =>
      cases a with
      | fail c => exact .inr ⟨0, c, as, n.succ_pos, rfl⟩
      | ok =>
        obtain ⟨rest, rfl⟩ | ⟨i, c, rest, hi, rfl⟩ := ih (Nat.le_of_succ_le_succ enough)
        · exact .inl ⟨rest, rfl⟩
        · exact .inr ⟨i + 1, c, rest, Nat.succ_lt_succ hi, rfl⟩

/-- Settles O43: an answer at once takes one step; else the at most five words are all transported, or the run stops at
the first that fails. -/
theorem operationReturnsWithinFiveSteps : Obligations.OperationReturnsWithinFiveSteps := by
  intro s S op ops as env agree start hq notRaw five he
  cases hp : plan op s with
  | reply r =>
    have due : quiet s := by
      obtain ⟨a, as, rfl⟩ := List.exists_cons_of_length_eq_add_one five
      exact .inr ⟨a, _, he⟩
    exact ⟨1, _, r, le_rfl, by decide, run_succ (step_of_reply hq due hp), rfl, rfl, rfl⟩
  | emit ws after =>
    obtain ⟨least, most⟩ := plan_length hp
    obtain ⟨T, sent⟩ := agree.landAll_of_emit notRaw hp
    obtain ⟨rest, rfl⟩ | ⟨i, c, rest, inside, rfl⟩ := answers_split (most.trans five.ge)
    · have ran := run_completed (env := answers rest ++ env) start hq hp (by simp [he, answers]) sent
      exact ⟨ws.length, _, .ok, least, most, ran, rfl, rfl, rfl⟩
    · obtain ⟨_, _, _, _, _, ended⟩ := run_stopped_at (c := c) (env := answers rest ++ env) start hq hp sent
        (List.getElem?_eq_getElem inside) (by simp [he, answers])
      exact ⟨i + 1, _, _, Nat.succ_pos i, (Nat.succ_le_of_lt inside).trans most, ended, rfl, rfl, rfl⟩

end Sys2Proof.Machine
end

section
/-! A `set_frequency` that failed, and the next one (70_reset_and_hazards.md R233). -/

namespace Sys2Proof.Machine

open Host

section
variable {s : State} {S : Shadow} {h1 h2 : Rat} {ops : List Operation} {env : List EnvEvent}

/-- A word that failed without corruption and was lost. -/
theorem failedImage_lost {corrupt : Bool} (T U : Target) (intact : corrupt = false) :
    failedImage corrupt .lost T U = T := by
  rw [intact]
  rfl

/-- A word that failed without corruption and was delivered. -/
theorem failedImage_delivered {corrupt : Bool} (T U : Target) (intact : corrupt = false) :
    failedImage corrupt .delivered T U = U := by
  rw [intact]
  rfl

section
variable (agree : Agrees s S) (start : s.index = 0) (valid : freqValid s.params.refClkHz h1)
  (hq : s.queue = .setFrequency h1 :: ops)
include agree start valid hq

/-- Stopped at its first word. -/
theorem run_setFrequency_stopped_first {c : Delivery} (he : s.env = answers [.fail c] ++ env) :
    Core.run Sys2Proof.core 1 s = .next (stopped s (.setFrequency h1) ops env []
      (freqTag (!S.fsel) ++ loHalf (freqWordOf s.params.refClkHz h1)) c
      (failedImage s.params.corruptOnFailure c s.target
        (s.target.takeHalf (!S.fsel) (loHalf (freqWordOf s.params.refClkHz h1))))) :=
  (run_stopped (done := []) start hq (plan_setFrequency agree.initialised agree.shadow valid) he .nil
    (lands_freq _ _ agree.ctrl)).2

/-- Stopped at its second word. -/
theorem run_setFrequency_stopped_second {c : Delivery} (he : s.env = answers [.ok, .fail c] ++ env) :
    Core.run Sys2Proof.core 2 s = .next (stopped s (.setFrequency h1) ops env
      [freqTag (!S.fsel) ++ loHalf (freqWordOf s.params.refClkHz h1)]
      (freqTag (!S.fsel) ++ hiHalf (freqWordOf s.params.refClkHz h1)) c
      (failedImage s.params.corruptOnFailure c
        (s.target.takeHalf (!S.fsel) (loHalf (freqWordOf s.params.refClkHz h1)))
        (s.target.takePair S (freqWordOf s.params.refClkHz h1)))) :=
  (run_stopped (done := [_]) start hq (plan_setFrequency agree.initialised agree.shadow valid) he
    (.cons (lands_freq _ _ agree.ctrl) .nil)
    (lands_freq _ _ ((Target.takeHalf_ctrl _ _).trans agree.ctrl))).2

/-- Stopped at its control word. -/
theorem run_setFrequency_stopped_third {c : Delivery} (he : s.env = answers [.ok, .ok, .fail c] ++ env) :
    Core.run Sys2Proof.core 3 s = .next (stopped s (.setFrequency h1) ops env
      [freqTag (!S.fsel) ++ loHalf (freqWordOf s.params.refClkHz h1),
        freqTag (!S.fsel) ++ hiHalf (freqWordOf s.params.refClkHz h1)]
      (ctrlWord S.wave (!S.fsel) S.psel S.rst) c
      (failedImage s.params.corruptOnFailure c (s.target.takePair S (freqWordOf s.params.refClkHz h1))
        ((s.target.takePair S (freqWordOf s.params.refClkHz h1)).takeCtrl
          (ctrlWord S.wave (!S.fsel) S.psel S.rst)))) :=
  (run_stopped (done := [_, _]) start hq (plan_setFrequency agree.initialised agree.shadow valid) he
    (landAll_pair S _ agree.ctrl) (lands_ctrlWord _ _ _ _ _)).2
end

/-! ### A pending half -/

/-- Without a value in the selected frequency register there is no output. -/
theorem observe_none {ref : Rat} {t : Target} {c : Word} (known : t.ctrl = some c) (reset : ctrlReset c = false)
    (freq : t.freq.get (ctrlFselect c) = none) : observe ref t = none := by
  simp [observe, known, reset, freq]

/-- The swap of a pair that found its register's half pending loses that register: the control word breaks the pair of
its second word. -/
theorem Target.takePair_takeCtrl_of_half {T : Target} (S : Shadow) (fw : FreqWord) (w : Word) {lo : Half}
    (h : T.pend = .half (!S.fsel) lo) : ((T.takePair S fw).takeCtrl w).freq.get (!S.fsel) = none := by
  rw [takeCtrl_freq, breakPair_of_half (takePair_of_half S fw h)]
  exact Slots.get_set_same _ _ _

/-- After a run to `t`, where this register's half is pending, `set_frequency` returns `ok` with the register lost and
no output. -/
theorem retry_after_half {n : Nat} {t : State} {lo : Half} (failed : Core.run Sys2Proof.core n s = .next t)
    (start : t.index = 0) (ready : t.initialised = true) (shadow : t.shadow = some S) (running : S.rst = false)
    (valid : freqValid t.params.refClkHz h2) (known : t.target.ctrl = some (ctrlWord S.wave S.fsel S.psel S.rst))
    (half : t.target.pend = .half (!S.fsel) lo) (hq : t.queue = [.setFrequency h2])
    (he : t.env = answers [.ok, .ok, .ok] ++ env) :
    ∃ u : State, Core.run Sys2Proof.core (n + 3) s = .next u ∧ u.observation = none ∧
      u.target.freq.get (!S.fsel) = none ∧ u.results = t.results ++ [.ok] := by
  have ran := run_setFrequency start ready shadow known valid hq he
  have lost := Target.takePair_takeCtrl_of_half S (freqWordOf t.params.refClkHz h2)
    (ctrlWord S.wave (!S.fsel) S.psel S.rst) half
  exact ⟨_, (run_add failed).trans ran, observe_none rfl ((ctrlReset_ctrlWord _ _ _ _).trans running)
    (by rw [ctrlFselect_ctrlWord]; exact lost), lost, rfl⟩

end

/-- Settles O40: both failures leave the first half pending, which `retry_after_half` meets. -/
theorem retryAfterPendingHalfLosesOutput : Obligations.RetryAfterPendingHalfLosesOutput := by
  intro s S h1 h2 env agree start running intact valid1 valid2 hq
  have waiting (lo : Half) := Target.takeHalf_first (!S.fsel) lo agree.pend
  refine ⟨fun he => ?first, fun he => ?second⟩
  case first =>
    have failed := run_setFrequency_stopped_first (env := answers [.ok, .ok, .ok] ++ env) agree start valid1 hq he
    rw [failedImage_delivered _ _ intact, waiting] at failed
    obtain ⟨t, ran, output, register, results⟩ :=
      retry_after_half failed rfl agree.initialised agree.shadow running valid2 agree.ctrl rfl rfl rfl
    exact ⟨t, ran, output, register, by rw [results, List.append_assoc]; rfl⟩
  case second =>
    have failed := run_setFrequency_stopped_second (env := answers [.ok, .ok, .ok] ++ env) agree start valid1 hq he
    rw [failedImage_lost _ _ intact, waiting] at failed
    obtain ⟨t, ran, output, register, results⟩ :=
      retry_after_half failed rfl agree.initialised agree.shadow running valid2 agree.ctrl rfl rfl rfl
    exact ⟨t, ran, output, register, by rw [results, List.append_assoc]; rfl⟩

/-! ### The failures that leave agreement -/

/-- After a run to an agreeing state `t`, `set_frequency` ends in agreement on its own frequency. -/
theorem retry_after_agreement {n : Nat} {s t : State} {S : Shadow} {hz : Rat} {ops : List Operation}
    {env : List EnvEvent} (failed : Core.run Sys2Proof.core n s = .next t) (agree : Agrees t S) (start : t.index = 0)
    (valid : freqValid t.params.refClkHz hz) (hq : t.queue = .setFrequency hz :: ops)
    (he : t.env = answers [.ok, .ok, .ok] ++ env) :
    ∃ u : State, Core.run Sys2Proof.core (n + 3) s = .next u ∧ Agrees u { S with fsel := !S.fsel } ∧
      u.target.freq.get (!S.fsel) = some (freqWordOf t.params.refClkHz hz) := by
  have ran := run_setFrequency start agree.initialised agree.shadow agree.ctrl valid hq he
  have image := Target.takePair_takeCtrl_of_none S (freqWordOf t.params.refClkHz hz)
    (ctrlWord S.wave (!S.fsel) S.psel S.rst) agree.pend
  refine ⟨_, (run_add failed).trans ran, (agree.follows.setFrequency _).agrees agree.initialised rfl, ?_⟩
  simp only [image]
  exact Slots.get_set_same _ _ _

/-- Settles O41: each of the three failures leaves the image following the shadow, so the retry starts in agreement. -/
theorem retryOtherwiseRestoresAgreement : Obligations.RetryOtherwiseRestoresAgreement := by
  intro s S h1 h2 env agree start intact valid1 valid2 hq
  have pair := agree.follows.takePair (freqWordOf s.params.refClkHz h1)
  refine ⟨fun he => ?first, fun he => ?second, fun he => ?third⟩
  case first =>
    have failed := run_setFrequency_stopped_first (env := answers [.ok, .ok, .ok] ++ env) agree start valid1 hq he
    rw [failedImage_lost _ _ intact] at failed
    have retried := retry_after_agreement (S := S) failed
      ⟨agree.initialised, agree.shadow, agree.ctrl, agree.pend, agree.freq, agree.phase⟩ rfl valid2 rfl rfl
    exact retried
  case second =>
    have failed := run_setFrequency_stopped_second (env := answers [.ok, .ok, .ok] ++ env) agree start valid1 hq he
    rw [failedImage_delivered _ _ intact] at failed
    have retried := retry_after_agreement (S := S) failed
      (pair.agrees agree.initialised agree.shadow) rfl valid2 rfl rfl
    exact retried
  case third =>
    have failed := run_setFrequency_stopped_third (env := answers [.ok, .ok, .ok] ++ env) agree start valid1 hq he
    rw [failedImage_lost _ _ intact] at failed
    have retried := retry_after_agreement (S := S) failed
      (pair.agrees agree.initialised agree.shadow) rfl valid2 rfl rfl
    exact retried

/-! ### A delivered swap -/

/-- The two halves of `set_frequency` answered `ok`, on an image whose control register a word of the block set. -/
theorem run_setFrequency_pair {t : State} {S : Shadow} {hz : Rat} {ops : List Operation} {env : List EnvEvent}
    {w : Waveform} {f p r : Bool} (start : t.index = 0) (ready : t.initialised = true) (shadow : t.shadow = some S)
    (known : t.target.ctrl = some (ctrlWord w f p r)) (valid : freqValid t.params.refClkHz hz)
    (hq : t.queue = .setFrequency hz :: ops) (he : t.env = answers [.ok, .ok] ++ env) :
    Core.run Sys2Proof.core 2 t = .next (wordsSent t env
      [freqTag (!S.fsel) ++ loHalf (freqWordOf t.params.refClkHz hz),
        freqTag (!S.fsel) ++ hiHalf (freqWordOf t.params.refClkHz hz)]
      (t.target.takePair S (freqWordOf t.params.refClkHz hz))) :=
  run_words hq (plan_setFrequency ready shadow valid) (by rw [start]; rfl) (List.cons_ne_nil _ _) he
    (landAll_pair S _ known)

/-- Settles O42: the failed step leaves the image of the finished operation under the old shadow, so the retry's pair is
for the register that the control word selects. -/
theorem retryAfterDeliveredSwapWritesActive : Obligations.RetryAfterDeliveredSwapWritesActive := by
  intro s S h1 h2 env agree start intact valid1 valid2 hq he
  have failed := run_setFrequency_stopped_third (env := answers [.ok, .ok] ++ env) agree start valid1 hq he
  rw [failedImage_delivered _ _ intact, Target.takePair_takeCtrl_of_none _ _ _ agree.pend] at failed
  have retried := (run_add failed).trans
    (run_setFrequency_pair rfl agree.initialised agree.shadow rfl valid2 rfl rfl)
  rw [Target.takePair_of_none _ _ (by exact agree.pend)] at retried
  exact ⟨_, _, failed, agree.shadow, congrArg some (ctrlFselect_ctrlWord _ _ _ _), Slots.get_set_same _ _ _, retried,
    rfl, Slots.get_set_same _ _ _⟩

end Sys2Proof.Machine
end
